-- ==== Sys2Proof/Word.lean ====
section
/-! DEFINITION. The word types of PNGCORE (00_scope.md R9, R10; 10_state.md R20, R30, R33). -/

namespace Sys2Proof

/-- A 32-bit value: an operand register, a CSR, a command word, a CRC (R9 `XLEN`, R80). -/
abbrev Word := BitVec 32

/-- A 16-bit value: an Adler sum (R33), an immediate (R84). -/
abbrev Half := BitVec 16

/-- A cell of the memory `M` (R30). -/
abbrev Byte := BitVec 8

/-- The index of an operand register, a 4-bit field used directly as `i` of `x[i]` (R84). -/
abbrev Reg := BitVec 4

end Sys2Proof
end

