-- ==== Sys2Proof/Syntax.lean ====
section
/-! DEFINITION. The 18 commands of PNGCORE, one constructor per row of opcode_table.json (30_encoding.md R86). -/

namespace Sys2Proof

/-- A command with its operand fields, in the assembler order of R86. Register fields are indices (R84); `imm` is the
unsigned 16-bit immediate and `csr` the 16-bit CSR number, both `w[15:0]` (R83, R84). -/
inductive Instr where
  | nop
  | li (rd : Reg) (imm : Half)
  | lih (rd : Reg) (imm : Half)
  | csrr (rd : Reg) (csr : Half)
  | csrw (csr : Half) (rs1 : Reg)
  | clrerr
  | crcinit
  | crctab (rd rs1 : Reg)
  | crc32 (rd rs1 rs2 : Reg)
  | adlinit
  | adlupd (rs1 rs2 : Reg)
  | adlget (rd : Reg)
  | put16le (rs1 rs2 : Reg)
  | put16be (rs1 rs2 : Reg)
  | put32be (rs1 rs2 : Reg)
  | palpack (rd rs1 rs2 rs3 rs4 : Reg)
  | zframe (rd rs1 rs2 rs3 rs4 : Reg)
  | chunk (rd rs1 rs2 rs3 rs4 : Reg)
  deriving DecidableEq, Repr

end Sys2Proof
end

