-- ==== Sys2Proof/Decode.lean ====
section
/-! DEFINITION. Command words: fields, the command table, the decoder and the encoder (30_encoding.md R80 to R92). -/

namespace Sys2Proof

/-- Bits 31:24 of a command word (R82, R83). -/
def opField (w : Word) : Byte := w.extractLsb' 24 8
/-- Bits 23:20. -/
def rdField (w : Word) : Reg := w.extractLsb' 20 4
/-- Bits 19:16. -/
def rs1Field (w : Word) : Reg := w.extractLsb' 16 4
/-- Bits 15:12 (format R). -/
def rs2Field (w : Word) : Reg := w.extractLsb' 12 4
/-- Bits 11:8 (format R). -/
def rs3Field (w : Word) : Reg := w.extractLsb' 8 4
/-- Bits 7:4 (format R). -/
def rs4Field (w : Word) : Reg := w.extractLsb' 4 4
/-- Bits 15:0 (format I): `imm16`, or the CSR number (R84). -/
def immField (w : Word) : Half := w.extractLsb' 0 16

/-- A row of the table of R86: a word `w` is this command if and only if `(w and mask) = pattern`. -/
structure Row where
  pattern : Word
  mask : Word
  /-- The command with the fields of the word. -/
  build : Word → Instr

/-- The complete command set, the `match` and `mask` columns of R86 in the table's order. -/
def rows : List Row := [
  ⟨0x00000000, 0xFFFFFFFF, fun _ => .nop⟩,
  ⟨0x01000000, 0xFF0F0000, fun w => .li (rdField w) (immField w)⟩,
  ⟨0x02000000, 0xFF0F0000, fun w => .lih (rdField w) (immField w)⟩,
  ⟨0x03000000, 0xFF0F0000, fun w => .csrr (rdField w) (immField w)⟩,
  ⟨0x04000000, 0xFFF00000, fun w => .csrw (immField w) (rs1Field w)⟩,
  ⟨0x05000000, 0xFFFFFFFF, fun _ => .clrerr⟩,
  ⟨0x10000000, 0xFFFFFFFF, fun _ => .crcinit⟩,
  ⟨0x11000000, 0xFF00FFFF, fun w => .crctab (rdField w) (rs1Field w)⟩,
  ⟨0x12000000, 0xFF000FFF, fun w => .crc32 (rdField w) (rs1Field w) (rs2Field w)⟩,
  ⟨0x18000000, 0xFFFFFFFF, fun _ => .adlinit⟩,
  ⟨0x19000000, 0xFFF00FFF, fun w => .adlupd (rs1Field w) (rs2Field w)⟩,
  ⟨0x1A000000, 0xFF0FFFFF, fun w => .adlget (rdField w)⟩,
  ⟨0x20000000, 0xFFF00FFF, fun w => .put16le (rs1Field w) (rs2Field w)⟩,
  ⟨0x21000000, 0xFFF00FFF, fun w => .put16be (rs1Field w) (rs2Field w)⟩,
  ⟨0x22000000, 0xFFF00FFF, fun w => .put32be (rs1Field w) (rs2Field w)⟩,
  ⟨0x30000000, 0xFF00000F, fun w => .palpack (rdField w) (rs1Field w) (rs2Field w) (rs3Field w) (rs4Field w)⟩,
  ⟨0x40000000, 0xFF00000F, fun w => .zframe (rdField w) (rs1Field w) (rs2Field w) (rs3Field w) (rs4Field w)⟩,
  ⟨0x50000000, 0xFF00000F, fun w => .chunk (rdField w) (rs1Field w) (rs2Field w) (rs3Field w) (rs4Field w)⟩]

/-- `(w and row.mask) = row.match` (R81). -/
def Row.selects (r : Row) (w : Word) : Bool := w &&& r.mask == r.pattern

/-- Why a word matches no row. -/
inductive DecodeError where
  /-- Bits 31:24 are none of the 18 opcodes (R88). -/
  | unknownOpcode (op : Byte)
  /-- The opcode is in the table and a bit that must be zero is set (R89). -/
  | mustBeZero (op : Byte)
  deriving DecidableEq, Repr

/-- The row of R86 that a word matches, or the reason why there is none (R81, R88, R89). Total on all words. -/
def decode (w : Word) : Except DecodeError Instr :=
  match rows.find? (·.selects w) with
  | some r => .ok (r.build w)
  | none =>
    if rows.any (fun r => opField r.pattern == opField w) then .error (.mustBeZero (opField w))
    else .error (.unknownOpcode (opField w))

/-- A format R word: `op rd rs1 rs2 rs3 rs4 z` with `z = 0` (R82, R86). -/
def formatR (op : Byte) (rd rs1 rs2 rs3 rs4 : Reg) : Word := op ++ rd ++ rs1 ++ rs2 ++ rs3 ++ rs4 ++ (0 : Reg)

/-- A format I word: `op rd rs1 imm16` (R83, R86). -/
def formatI (op : Byte) (rd rs1 : Reg) (imm : Half) : Word := op ++ rd ++ rs1 ++ imm

/-- The word of a command with given fields, unused fields 0 (R86). -/
def encode : Instr → Word
  | .nop => formatR 0x00 0 0 0 0 0
  | .li rd imm => formatI 0x01 rd 0 imm
  | .lih rd imm => formatI 0x02 rd 0 imm
  | .csrr rd csr => formatI 0x03 rd 0 csr
  | .csrw csr rs1 => formatI 0x04 0 rs1 csr
  | .clrerr => formatR 0x05 0 0 0 0 0
  | .crcinit => formatR 0x10 0 0 0 0 0
  | .crctab rd rs1 => formatR 0x11 rd rs1 0 0 0
  | .crc32 rd rs1 rs2 => formatR 0x12 rd rs1 rs2 0 0
  | .adlinit => formatR 0x18 0 0 0 0 0
  | .adlupd rs1 rs2 => formatR 0x19 0 rs1 rs2 0 0
  | .adlget rd => formatR 0x1A rd 0 0 0 0
  | .put16le rs1 rs2 => formatR 0x20 0 rs1 rs2 0 0
  | .put16be rs1 rs2 => formatR 0x21 0 rs1 rs2 0 0
  | .put32be rs1 rs2 => formatR 0x22 0 rs1 rs2 0 0
  | .palpack rd rs1 rs2 rs3 rs4 => formatR 0x30 rd rs1 rs2 rs3 rs4
  | .zframe rd rs1 rs2 rs3 rs4 => formatR 0x40 rd rs1 rs2 rs3 rs4
  | .chunk rd rs1 rs2 rs3 rs4 => formatR 0x50 rd rs1 rs2 rs3 rs4

/-- The word that the table numbers as `w` on `nbits` bits: a command is one 32-bit word (R80), bits above `nbits` are 0. -/
def tableWord (nbits w : Nat) : Word := BitVec.ofNat 32 (w % 2 ^ nbits)

/-- The command the decoder reads from the table's word. -/
def decodeTableWord (nbits w : Nat) : Option Instr := (decode (tableWord nbits w)).toOption

end Sys2Proof
end

