-- ==== Sys2Proof/Config.lean ====
section
/-! DEFINITION. What one machine fixes and the spec leaves open (00_scope.md R9; 70_reset_and_hazards.md R232). -/

namespace Sys2Proof

/-- `MEMSIZE` of the machine that `State.reset` describes. The spec leaves it OPEN in `1 .. 2^32-1` (R9); State carries
the size, so statements over all states hold for every `MEMSIZE`; only `State.reset` uses this value.
DESIGN CHOICE (log 1), the size the spec's test vectors use. -/
def Config.memSize : Fin (2 ^ 32) := 65536

/-- FREE VALUE: the byte that stands at address `a` of `M` after power-on or a reset, until something is written there.
R232: "a model takes them as an arbitrary array of `MEMSIZE` bytes, a free input, the same array for every read until
written". It is applied to all that `M` was before the reset (`past`, `fill`; `past` is empty at power-on), so a block whose
`Reset` keeps the old bytes and one whose `Reset` does not are both among its values (log 2). That it depends on nothing
else is the model's choice (DESIGN CHOICE, log 3). -/
opaque Config.ramByte (past : List (List Host.Cell)) (fill : Option Byte) (a : Nat) : Byte

end Sys2Proof
end

