-- ==== Sys2Proof/Machine/State.lean ====
section
/-! DEFINITION. The state of PNGCORE and of the host at its port, the stops, and reset (10_state.md; 20_memory.md R62). -/

namespace Sys2Proof.Machine

/-- The seven error names (60_exceptions.md R200). Their codes are `errCode` in Flags.lean. -/
inductive ErrorName where
  | illegalCommand
  | bounds
  | paletteLength
  | paletteCountRange
  | paletteCountFit
  | widthRange
  | bankZero
  deriving DecidableEq, Repr

/-- The four CSRs (10_state.md R26). -/
inductive Csr where
  | status
  | cfg
  | bank
  | errinfo
  deriving DecidableEq, Repr

/-- The byte memory `M` (10_state.md R30). Which byte an address holds is `Memory.read` in Ops.lean. -/
structure Memory where
  /-- `MEMSIZE` (00_scope.md R9), fixed for the machine: no step changes it. Below `2^32` by its type. -/
  size : Fin (2 ^ 32)
  /-- The model's own record of what `cells` held at each `Reset`, latest first, to which the free value `Config.ramByte` is
  applied (R232, log 2, 3). -/
  past : List (List Host.Cell)
  /-- What an address that `cells` does not list reads as before any `Reset`: `some b` is the byte `b` (a memory somebody
  filled), `none` is the free value (R232, log 2). -/
  fill : Option Byte
  /-- The listed bytes, addresses strictly rising, none equal to what its address would read as unlisted (`Memory.wf`). -/
  cells : List Host.Cell
  deriving DecidableEq, Repr

/-- The six actions of the host between commands (20_memory.md R62). A register or CSR that does not exist cannot be named. -/
inductive HostAction where
  | issue (w : Word)
  | writeMem (a : Nat) (b : Byte)
  | readMem (a : Nat)
  | readReg (i : Reg)
  | readCsr (k : Csr)
  | reset
  deriving DecidableEq, Repr

/-- What a host read returned (R62). -/
inductive HostAnswer where
  | mem (a : Nat) (b : Byte)
  | reg (i : Reg) (v : Word)
  | csr (k : Csr) (v : Word)
  deriving DecidableEq, Repr

/-- The state tuple of 10_state.md, under the spec's own names, and the host's side of the port. -/
structure State where
  /-- Operand registers `x[0] .. x[15]` (R20). None is hard-wired (R21). -/
  x : Vector Word 16
  /-- The byte memory (R30). -/
  M : Memory
  /-- The CRC lookup table `T[0] .. T[255]` (R34). -/
  T : Vector Word 256
  /-- Table valid (R35). -/
  TV : Bool
  /-- Adler sum `a` (R33). -/
  A : Half
  /-- Adler sum `b` (R33). -/
  B : Half
  /-- `CFG[0]`, hi-attribute mode (R28). -/
  HIATTR : Bool
  /-- CSR 2, the palette-bank size (R29). -/
  BANK : Word
  /-- The code of the first error since the last reset or `CLRERR`, or 0 (R32). -/
  ERR : Byte
  /-- CSR 3, the word of the command that raised `ERR` (R31). -/
  ERRINFO : Word
  /-- The model's own: the host's coming actions, oldest first (R7, R62; log 6). -/
  pending : List HostAction
  /-- The model's own: what the host's reads have returned, oldest first (R62; log 8). -/
  answers : List HostAnswer
  deriving DecidableEq, Repr

/-- Why a step stops the machine. -/
inductive Fault where
  /-- Raised by the host port on `HostReadMem(a)` or `HostWriteMem(a, b)` with `a >= MEMSIZE`. R62: "is not a legal action
  of the host and the model gives it no move". SAFE: no command raises it, and the machine has no such move (log 9). -/
  | hostOutsideM (a : Nat)
  deriving DecidableEq, Repr

/-- Why an instruction is given no meaning. -/
inductive Refusal where
  /-- Raised by `exec` for a command whose meaning is not written. SAFE. No arm uses it: all 18 have their meaning. -/
  | notModelled (mnemonic : String)
  deriving DecidableEq, Repr

/-- `M` at power-on: `size` bytes nobody knows (R232). -/
def Memory.powerOn (size : Fin (2 ^ 32)) : Memory := ⟨size, [], none, []⟩

/-- The machine right after reset (10_state.md R37, 70_reset_and_hazards.md R230). `T` is unspecified and unreadable while
`TV = 0` (R34): zeros here are a DESIGN CHOICE (log 4). The host has nothing pending and has read nothing. -/
def State.reset : State where
  x := Vector.replicate 16 0
  M := Memory.powerOn Config.memSize
  T := Vector.replicate 256 0
  TV := false
  A := 1
  B := 0
  HIATTR := false
  BANK := 0
  ERR := 0
  ERRINFO := 0
  pending := []
  answers := []

end Sys2Proof.Machine
end

