-- ==== Sys2Proof/Machine/Flags.lean ====
section
/-! DEFINITION. PNGCORE has no condition codes (10_state.md R25). Its status bits: error codes, `STATUS`, `CFG`
(10_state.md R27, R28; 60_exceptions.md R200). -/

namespace Sys2Proof.Machine

/-- The error codes (R200). -/
def errCode : ErrorName → Byte
  | .illegalCommand => 1
  | .bounds => 2
  | .paletteLength => 3
  | .paletteCountRange => 4
  | .paletteCountFit => 5
  | .widthRange => 6
  | .bankZero => 7

/-- `STATUS = (TV << 8) or ERR`, bits 31:9 read 0 (R27). -/
def statusWord (s : State) : Word := (BitVec.ofBool s.TV).setWidth 32 <<< 8 ||| s.ERR.setWidth 32

/-- `CFG`: bit 0 is `HIATTR`, bits 31:1 read 0 (R28). -/
def cfgWord (s : State) : Word := (BitVec.ofBool s.HIATTR).setWidth 32

/-- The bit of `CFG` that a write stores; the others are ignored (R28). -/
def cfgBit (v : Word) : Bool := v.getLsbD 0

/-- Fail-stop: `ERR != 0` (60_exceptions.md R206). -/
def State.failStop (s : State) : Bool := s.ERR != 0

end Sys2Proof.Machine
end

