-- ==== Sys2Proof/Machine/Ops.lean ====
section
/-! DEFINITION. The shared operations: loops, registers, memory, bounds, raising and clearing an error
(00_scope.md R11 to R15; 20_memory.md R56 to R61; 60_exceptions.md R204). -/

namespace Sys2Proof.Machine

/-- `for i in 0 .. n-1`: the body for `i = 0, 1, .., n-1` in ascending order, not at all when `n = 0` (R13). -/
def loop {σ : Type} : Nat → (Nat → σ → σ) → σ → σ
  | 0, _, s => s
  | n + 1, body, s => body n (loop n body s)

/-! ### Operand registers -/

/-- `x[i]` (R12, R20). -/
def readX (s : State) (i : Reg) : Word := s.x[i.toNat]

/-- `x[i] <- v` (R12). No register is hard-wired (R21). -/
def writeX (s : State) (i : Reg) (v : Word) : State := { s with x := s.x.set i.toNat v }

/-! ### The byte memory -/

/-- What an address that the memory does not list reads as: the byte it was filled with, or the free value, which after a
`Reset` is all that is known (R232, log 2, 3). -/
def Memory.unlisted (m : Memory) (a : Nat) : Byte :=
  match m.past, m.fill with
  | [], some b => b
  | [], none => Config.ramByte [] none a
  | cs :: older, fill => Config.ramByte (cs :: older) fill a

/-- The byte listed at an address, if any. -/
def lookupCell : List Host.Cell → Nat → Option Byte
  | [], _ => none
  | (b, v) :: t, a => if a = b then some v else lookupCell t a

/-- The list without the entries at an address. -/
def eraseCell (cs : List Host.Cell) (a : Nat) : List Host.Cell := cs.filter (fun c => c.1 != a)

/-- The list with an entry put before the first higher address. -/
def insertCell : List Host.Cell → Nat → Byte → List Host.Cell
  | [], a, v => [(a, v)]
  | (b, w) :: t, a, v => if a < b then (a, v) :: (b, w) :: t else (b, w) :: insertCell t a v

/-- `M[a]`: the latest value written there, or the byte that stood there at reset (R56, R61). -/
def Memory.read (m : Memory) (a : Nat) : Byte := (lookupCell m.cells a).getD (m.unlisted a)

/-- `M[a] <- v`, keeping the canonical form: a value equal to what the address reads as unlisted is not listed (R56). -/
def Memory.write (m : Memory) (a : Nat) (v : Byte) : Memory :=
  { m with cells :=
      if v = m.unlisted a then eraseCell m.cells a else insertCell (eraseCell m.cells a) a v }

/-- The canonical form: addresses strictly rising and below `MEMSIZE`, no entry equal to what its address reads as
unlisted. -/
abbrev Memory.wf (m : Memory) : Prop :=
  m.cells.Pairwise (fun c d => c.1 < d.1) ∧ ∀ c ∈ m.cells, c.1 < m.size.val ∧ c.2 ≠ m.unlisted c.1

/-- `MemRead(a, n)`: the bytes `M[a], .., M[a+n-1]` (R12). -/
def Memory.readBytes (m : Memory) (a : Nat) : Nat → List Byte
  | 0 => []
  | n + 1 => m.read a :: m.readBytes (a + 1) n

/-- `MemWrite(a, n, bs)`: the bytes in ascending address order (R12). -/
def Memory.writeBytes (m : Memory) (a : Nat) : List Byte → Memory
  | [] => m
  | b :: bs => (m.write a b).writeBytes (a + 1) bs

/-- `InRange(a, n)`: `a + n <= MEMSIZE`, the sum unbounded (R15, R58). -/
def inRange (s : State) (a n : Nat) : Bool := a + n ≤ s.M.size.val

/-- The state with another memory. -/
def withM (s : State) (m : Memory) : State := { s with M := m }

/-! ### The Adler sums -/

/-- `A <- a; B <- b`. -/
def withSums (s : State) (ab : Half × Half) : State := { s with A := ab.1, B := ab.2 }

/-! ### Errors -/

/-- The error record: `ERR` and `ERRINFO`. -/
def withError (s : State) (code : Byte) (info : Word) : State := { s with ERR := code, ERRINFO := info }

/-- ERROR ENTRY, `raise <Name>(w)`: `ERR <- code`, `ERRINFO <- w`, the command ends. Nothing is saved, nothing masked,
control goes nowhere; the block is then in fail-stop (R202, R204). -/
def raise (e : ErrorName) (w : Word) (s : State) : Host.Outcome State Fault Refusal := .next (withError s (errCode e) w)

/-- THE RETURN: `ERR <- 0`, `ERRINFO <- 0`; nothing is restored, because error entry saved nothing (R195, R207). -/
def clearError (s : State) : State := withError s 0 0

/-! ### Reset -/

/-- `M` after a `Reset`: nothing is listed, and every byte is the free value of all that `M` was before, so that neither
"keeps the old bytes" nor "does not" follows (R232, log 2). Two resets of equal memories give equal bytes: the model's
choice (DESIGN CHOICE, log 3). -/
def Memory.afterReset (m : Memory) : Memory := { m with past := m.cells :: m.past, cells := [] }

/-- The host action `Reset` (R230, R231): every element at its reset value. `M` becomes bytes nobody knows (R232). The cells
of `T`, which are unreadable, are left as they are: the model's choice (DESIGN CHOICE, log 5), R230 says that they "keep
arbitrary values". The host's own side of the port is no state of the block. -/
def resetBlock (s : State) : State :=
  { s with
    x := Vector.replicate 16 0
    M := s.M.afterReset
    TV := false
    A := 1
    B := 0
    HIATTR := false
    BANK := 0
    ERR := 0
    ERRINFO := 0 }

end Sys2Proof.Machine
end

