-- ==== Sys2Proof/Machine/Operands.lean ====
section
/-! DEFINITION. Operand forms: captured source registers, CSR operands, and the byte layouts of values
(00_scope.md R14; 10_state.md R26; 20_memory.md R51, R52; 41_packer.md R130). -/

namespace Sys2Proof.Machine

/-- A source register captured as a natural number: an address, length, width, height or count (R14, R68). -/
def srcNat (s : State) (r : Reg) : Nat := (readX s r).toNat

/-- `x[rd] <- v` for a number that the command's rule shows to be below `2^32` (R12). -/
def writeNat (s : State) (rd : Reg) (v : Nat) : State := writeX s rd (BitVec.ofNat 32 v)

/-! ### CSR operands -/

/-- The CSR of a number; 4 to 65535 do not exist (R26). -/
def csrOfNumber (n : Nat) : Option Csr :=
  if n = 0 then some .status
  else if n = 1 then some .cfg
  else if n = 2 then some .bank
  else if n = 3 then some .errinfo
  else none

/-- The 32-bit value of a CSR as `CSRR` and the host port read it (R26, R62, R193). -/
def csrValue (s : State) : Csr → Word
  | .status => statusWord s
  | .cfg => cfgWord s
  | .bank => s.BANK
  | .errinfo => s.ERRINFO

/-- A write of a writable CSR; none for the read-only `STATUS` and `ERRINFO` (R26, R194). -/
def csrStore (s : State) (v : Word) : Csr → Option State
  | .cfg => some { s with HIATTR := cfgBit v }
  | .bank => some { s with BANK := v }
  | .status => none
  | .errinfo => none

/-! ### Bytes of a value -/

/-- `(v >> sh) mod 256` (R130). -/
def byteAt (v : Word) (sh : Nat) : Byte := (v >>> sh).setWidth 8

/-- A 16-bit little-endian field: the low half of the value, least significant byte first (R131). -/
def le16 (v : Word) : List Byte := [byteAt v 0, byteAt v 8]

/-- A 16-bit big-endian field: the low half of the value, most significant byte first (R132). -/
def be16 (v : Word) : List Byte := [byteAt v 8, byteAt v 0]

/-- A 32-bit big-endian field, which is also the layout of a chunk type tag (R52, R133). -/
def be32 (v : Word) : List Byte := [byteAt v 24, byteAt v 16, byteAt v 8, byteAt v 0]

end Sys2Proof.Machine
end

