-- ==== Sys2Proof/Machine/Checksum.lean ====
section
/-! DEFINITION. The checksum engines and CRCINIT, CRCTAB, CRC32, ADLINIT, ADLUPD, ADLGET (40_checksum.md). -/

namespace Sys2Proof.Machine

/-! ### The CRC-32/PNG polynomial generator -/

/-- `POLY`, the reflected polynomial (00_scope.md R8). -/
def crcPoly : Word := 0xEDB88320

/-- One shift-and-conditional-xor step (R110). -/
def crcShift (c : Word) : Word := if c.getLsbD 0 then crcPoly ^^^ (c >>> 1) else c >>> 1

/-- `TableEntry(n)`: eight steps from `n` (R110). -/
def tableEntry (n : Byte) : Word := loop 8 (fun _ c => crcShift c) (n.setWidth 32)

/-- All 256 entries (R110, R111). -/
def crcTable : Vector Word 256 := ⟨((List.range 256).map (fun n => tableEntry (BitVec.ofNat 8 n))).toArray, by simp⟩

/-- `EnsureTable()`: builds `T` when `TV = 0`, then sets `TV`; nothing when `TV = 1` (R111). -/
def ensureTable (s : State) : State := if s.TV then s else { s with T := crcTable, TV := true }

/-- `T[i]`. -/
def tableAt (T : Vector Word 256) (i : Byte) : Word := T[i.toNat]

/-- `CrcStep(c, d) = T[(c xor d)[7:0]] xor (c >> 8)` (R112). -/
def crcStep (T : Vector Word 256) (c : Word) (d : Byte) : Word := tableAt T ((c ^^^ d.setWidth 32).setWidth 8) ^^^ (c >>> 8)

/-- `Crc32Bytes`: start all ones, a step per byte, final xor all ones (R113). -/
def crc32Bytes (T : Vector Word 256) (bs : List Byte) : Word := bs.foldl (crcStep T) 0xFFFFFFFF ^^^ 0xFFFFFFFF

/-- `CRCINIT`: build the table now (R114). -/
def execCrcinit (s : State) : Host.Outcome State Fault Refusal := .next (ensureTable s)

/-- `CRCTAB rd, rs1`: `x[rd] <- T[x[rs1][7:0]]` (R115). -/
def execCrctab (rd rs1 : Reg) (s : State) : Host.Outcome State Fault Refusal :=
  let i := (readX s rs1).setWidth 8
  let t := ensureTable s
  .next (writeX t rd (tableAt t.T i))

/-- `CRC32 rd, rs1, rs2`: the CRC-32 of a region (R116). -/
def execCrc32 (rd rs1 rs2 : Reg) (s : State) : Host.Outcome State Fault Refusal :=
  let a := srcNat s rs1
  let n := srcNat s rs2
  if !inRange s a n then raise .bounds (encode (.crc32 rd rs1 rs2)) s
  else
    let t := ensureTable s
    .next (writeX t rd (crc32Bytes t.T (t.M.readBytes a n)))

/-! ### The Adler-32 accumulator -/

/-- `ADLER_MOD` (00_scope.md R8). -/
def adlerMod : Nat := 65521

/-- The seeds `A = 1`, `B = 0` (R118, 00_scope.md R8). -/
def adlerSeed : Half × Half := (1, 0)

/-- `AdlerStep`: `a' <- (a + d) mod 65521; b' <- (b + a') mod 65521` (R117). -/
def adlerStep (ab : Half × Half) (d : Byte) : Half × Half :=
  let a := (ab.1.toNat + d.toNat) % adlerMod
  (BitVec.ofNat 16 a, BitVec.ofNat 16 ((ab.2.toNat + a) % adlerMod))

/-- `AdlerStep` over a sequence of bytes. -/
def adlerBytes (ab : Half × Half) (bs : List Byte) : Half × Half := bs.foldl adlerStep ab

/-- `ADLINIT`: seed the accumulator (R118). -/
def execAdlinit (s : State) : Host.Outcome State Fault Refusal := .next (withSums s adlerSeed)

/-- `ADLUPD rs1, rs2`: feed a region to the accumulator, continuing from `A`, `B` (R119). -/
def execAdlupd (rs1 rs2 : Reg) (s : State) : Host.Outcome State Fault Refusal :=
  let a := srcNat s rs1
  let n := srcNat s rs2
  if !inRange s a n then raise .bounds (encode (.adlupd rs1 rs2)) s
  else .next (withSums s (adlerBytes (s.A, s.B) (s.M.readBytes a n)))

/-- `ADLGET rd`: `x[rd] <- (B << 16) or A` (R120; 90_conflicts.md C1, C2). -/
def execAdlget (rd : Reg) (s : State) : Host.Outcome State Fault Refusal := .next (writeX s rd (s.B ++ s.A))

end Sys2Proof.Machine
end

