-- ==== Sys2Proof/Machine/Chunk.lean ====
section
/-! DEFINITION. The PNG chunk assembler CHUNK (44_chunk.md). -/

namespace Sys2Proof.Machine

/-- The payload copy, one byte at a time in ascending order (R170; overlap: 20_memory.md R69). -/
def copyBytes (dst src n : Nat) (m : Memory) : Memory := loop n (fun i m => m.write (dst + i) (m.read (src + i))) m

/-- Length, type and payload of a chunk, in that order (R170, R171). -/
def chunkBody (dst : Nat) (ty : Word) (src n : Nat) (m : Memory) : Memory :=
  copyBytes (dst + 8) src n ((m.writeBytes dst (be32 (BitVec.ofNat 32 n))).writeBytes (dst + 4) (be32 ty))

/-- The chunk with its CRC, which is computed from the type and payload bytes as they now stand in the destination (R170). -/
def chunkBytes (T : Vector Word 256) (dst : Nat) (ty : Word) (src n : Nat) (m : Memory) : Memory :=
  let m := chunkBody dst ty src n m
  m.writeBytes (dst + 8 + n) (be32 (crc32Bytes T (m.readBytes (dst + 4) (4 + n))))

/-- `CHUNK rd, rs1, rs2, rs3, rs4` (R170). -/
def execChunk (rd rs1 rs2 rs3 rs4 : Reg) (s : State) : Host.Outcome State Fault Refusal :=
  let dst := srcNat s rs1
  let ty := readX s rs2
  let src := srcNat s rs3
  let n := srcNat s rs4
  let w := encode (.chunk rd rs1 rs2 rs3 rs4)
  if !inRange s dst (12 + n) then raise .bounds w s
  else if !inRange s src n then raise .bounds w s
  else
    let t := ensureTable s
    .next (writeNat (withM t (chunkBytes t.T dst ty src n t.M)) rd (dst + 12 + n))

end Sys2Proof.Machine
end

