-- ==== Sys2Proof/Machine/Control.lean ====
section
/-! DEFINITION. The control commands NOP, LI, LIH, CSRR, CSRW, CLRERR (46_control.md). -/

namespace Sys2Proof.Machine

/-- `NOP`: no state change (R190). -/
def execNop (s : State) : Host.Outcome State Fault Refusal := .next s

/-- `LI rd, imm16`: `x[rd] <- zext_32(imm16)` (R191). -/
def execLi (rd : Reg) (imm : Half) (s : State) : Host.Outcome State Fault Refusal := .next (writeX s rd (imm.setWidth 32))

/-- `LIH rd, imm16`: `x[rd] <- (imm16 << 16) or x[rd][15:0]` (R192). -/
def execLih (rd : Reg) (imm : Half) (s : State) : Host.Outcome State Fault Refusal :=
  .next (writeX s rd (imm ++ (readX s rd).setWidth 16))

/-- `CSRR rd, csr`: `x[rd] <-` the CSR's value; `IllegalCommand` for a number that names none (R193, R90). -/
def execCsrr (rd : Reg) (csr : Half) (s : State) : Host.Outcome State Fault Refusal :=
  match csrOfNumber csr.toNat with
  | some k => .next (writeX s rd (csrValue s k))
  | none => raise .illegalCommand (encode (.csrr rd csr)) s

/-- `CSRW csr, rs1`: writes `CFG` or `BANK`; `IllegalCommand` for a read-only or missing CSR (R194, R90). -/
def execCsrw (csr : Half) (rs1 : Reg) (s : State) : Host.Outcome State Fault Refusal :=
  match (csrOfNumber csr.toNat).bind (csrStore s (readX s rs1)) with
  | some t => .next t
  | none => raise .illegalCommand (encode (.csrw csr rs1)) s

/-- `CLRERR`: the return from fail-stop; a no-op when `ERR = 0` already (R195). -/
def execClrerr (s : State) : Host.Outcome State Fault Refusal := .next (clearError s)

end Sys2Proof.Machine
end

