-- ==== Sys2Proof/Machine/Framer.lean ====
section
/-! DEFINITION. The deflate stored-block framer ZFRAME (43_zframe.md). -/

namespace Sys2Proof.Machine

/-- `WMAX` (00_scope.md R8, R152). -/
def widthMax : Nat := 65535

/-- The zlib header bytes `CMF = 0x78`, `FLG = 0x01` (R151). -/
def zlibHeader : List Byte := [0x78, 0x01]

/-- The row filter byte "none" (R156). -/
def filterNone : Byte := 0

/-- `ZLen(W, H) = 6 + H * (W + 6)` (R161). -/
def zLen (W H : Nat) : Nat := 6 + H * (W + 6)

/-- Where the block of row `y` stands: `dst + 2 + y*(W+6)` (R151, R155); for `y = H` the trailer (R158). -/
def blockAddr (dst W y : Nat) : Nat := dst + 2 + y * (W + 6)

/-- `LEN = (W + 1) mod 65536`, as the low half of a word (R155, R162). -/
def blockLen (W : Nat) : Word := BitVec.ofNat 32 ((W + 1) % 65536)

/-- The five header bytes of row `y`: final-flag, `LEN`, `NLEN = LEN xor 0xFFFF`, both little-endian (R155). -/
def blockHeader (W H y : Nat) : List Byte :=
  (if y + 1 = H then 1 else 0) :: (le16 (blockLen W) ++ le16 (blockLen W ^^^ 0xFFFF))

/-- The hi-attribute reduction: `v mod BANK` when `HIATTR = 1`, else `v` (R156). -/
def reducePixel (hiattr : Bool) (bank : Word) (v : Byte) : Byte :=
  if hiattr then BitVec.ofNat 8 (v.toNat % bank.toNat) else v

/-- What a row of the framer works on: the memory and the sums `(A, B)`. -/
abbrev FrameState := Memory × (Half × Half)

/-- Pixel `k` of a row whose pixels are read from `inp` on and emitted from `out` on: the emitted byte is also summed (R156, R157). -/
def framePixel (hiattr : Bool) (bank : Word) (inp out k : Nat) (f : FrameState) : FrameState :=
  let v := reducePixel hiattr bank (f.1.read (inp + k))
  (f.1.write (out + k) v, adlerStep f.2 v)

/-- Row `y`: header, filter byte (summed), pixels (R155 to R157, R159). -/
def frameRow (hiattr : Bool) (bank : Word) (dst src W H y : Nat) (f : FrameState) : FrameState :=
  let p := blockAddr dst W y
  loop W (framePixel hiattr bank (src + y * W) (p + 6))
    ((f.1.writeBytes p (blockHeader W H y)).write (p + 5) filterNone, adlerStep f.2 filterNone)

/-- All rows in ascending order, from the zlib header and the seeds (R157, R159). -/
def frameRows (hiattr : Bool) (bank : Word) (dst src W H : Nat) (m : Memory) : FrameState :=
  loop H (frameRow hiattr bank dst src W H) (m.writeBytes dst zlibHeader, adlerSeed)

/-- The trailer: `B` then `A`, each 16-bit big-endian (R158; 90_conflicts.md C1, C2). -/
def zTrailer (ab : Half × Half) : List Byte := be16 (ab.2.setWidth 32) ++ be16 (ab.1.setWidth 32)

/-- `ZFRAME rd, rs1, rs2, rs3, rs4` (R159), its checks in the order `WidthRange`, `BankZero`, `Bounds` (R152 to R154). -/
def execZframe (rd rs1 rs2 rs3 rs4 : Reg) (s : State) : Host.Outcome State Fault Refusal :=
  let dst := srcNat s rs1
  let src := srcNat s rs2
  let W := srcNat s rs3
  let H := srcNat s rs4
  let w := encode (.zframe rd rs1 rs2 rs3 rs4)
  if W > widthMax then raise .widthRange w s
  else if s.HIATTR && s.BANK == 0 then raise .bankZero w s
  else if !inRange s dst (zLen W H) then raise .bounds w s
  else if !inRange s src (W * H) then raise .bounds w s
  else
    let f := frameRows s.HIATTR s.BANK dst src W H s.M
    .next (writeNat (withSums (withM s (f.1.writeBytes (blockAddr dst W H) (zTrailer f.2))) f.2) rd (zLen W H))

end Sys2Proof.Machine
end

