-- ==== Sys2Proof/Machine/Packer.lean ====
section
/-! DEFINITION. The fixed-width packer PUT16LE, PUT16BE, PUT32BE (41_packer.md). -/

namespace Sys2Proof.Machine

/-- Common to the three writers: bounds check of the whole field, then its bytes in ascending order (R130, R58). -/
def putField (i : Instr) (a : Nat) (field : List Byte) (s : State) : Host.Outcome State Fault Refusal :=
  if !inRange s a field.length then raise .bounds (encode i) s
  else .next (withM s (s.M.writeBytes a field))

/-- `PUT16LE rs1, rs2`: `M[a] <- v[7:0]; M[a+1] <- v[15:8]` (R131). -/
def execPut16le (rs1 rs2 : Reg) (s : State) : Host.Outcome State Fault Refusal :=
  putField (.put16le rs1 rs2) (srcNat s rs1) (le16 (readX s rs2)) s

/-- `PUT16BE rs1, rs2`: `M[a] <- v[15:8]; M[a+1] <- v[7:0]` (R132). -/
def execPut16be (rs1 rs2 : Reg) (s : State) : Host.Outcome State Fault Refusal :=
  putField (.put16be rs1 rs2) (srcNat s rs1) (be16 (readX s rs2)) s

/-- `PUT32BE rs1, rs2`: `M[a] <- v[31:24]` to `M[a+3] <- v[7:0]` (R133). -/
def execPut32be (rs1 rs2 : Reg) (s : State) : Host.Outcome State Fault Refusal :=
  putField (.put32be rs1 rs2) (srcNat s rs1) (be32 (readX s rs2)) s

end Sys2Proof.Machine
end

