-- ==== Sys2Proof/Machine/Palette.lean ====
section
/-! DEFINITION. The palette RGB repacker PALPACK (42_palette.md). -/

namespace Sys2Proof.Machine

/-- `PALMAX` (00_scope.md R8). -/
def palMax : Nat := 256

/-- Entry `i`: reads `r`, `g`, `b` at `src + 4i + 2, + 1, + 0`, then writes them at `dst + 3i, + 1, + 2` (R141). -/
def palEntry (dst src i : Nat) (m : Memory) : Memory :=
  m.writeBytes (dst + 3 * i) [m.read (src + 4 * i + 2), m.read (src + 4 * i + 1), m.read (src + 4 * i)]

/-- All entries, in ascending order (R141; overlap: 20_memory.md R69). -/
def palPack (dst src count : Nat) (m : Memory) : Memory := loop count (palEntry dst src) m

/-- `PALPACK rd, rs1, rs2, rs3, rs4`, the checks in the order of R141 (90_conflicts.md C5). -/
def execPalpack (rd rs1 rs2 rs3 rs4 : Reg) (s : State) : Host.Outcome State Fault Refusal :=
  let dst := srcNat s rs1
  let src := srcNat s rs2
  let srclen := srcNat s rs3
  let count := srcNat s rs4
  let w := encode (.palpack rd rs1 rs2 rs3 rs4)
  if srclen % 4 != 0 then raise .paletteLength w s
  else if count > palMax then raise .paletteCountRange w s
  else if count * 4 > srclen then raise .paletteCountFit w s
  else if !inRange s src srclen then raise .bounds w s
  else if !inRange s dst (3 * count) then raise .bounds w s
  else .next (writeNat (withM s (palPack dst src count s.M)) rd (3 * count))

end Sys2Proof.Machine
end

