-- ==== Sys2Proof/Machine/Dispatch.lean ====
section
/-! DEFINITION. One arm per command: the rule of the row it decodes to (30_encoding.md R81, R86). -/

namespace Sys2Proof.Machine

def exec (i : Instr) (s : State) : Host.Outcome State Fault Refusal :=
  match i with
  | .nop => Sys2Proof.Machine.execNop s
  | .li rd imm => Sys2Proof.Machine.execLi rd imm s
  | .lih rd imm => Sys2Proof.Machine.execLih rd imm s
  | .csrr rd csr => Sys2Proof.Machine.execCsrr rd csr s
  | .csrw csr rs1 => Sys2Proof.Machine.execCsrw csr rs1 s
  | .clrerr => Sys2Proof.Machine.execClrerr s
  | .crcinit => Sys2Proof.Machine.execCrcinit s
  | .crctab rd rs1 => Sys2Proof.Machine.execCrctab rd rs1 s
  | .crc32 rd rs1 rs2 => Sys2Proof.Machine.execCrc32 rd rs1 rs2 s
  | .adlinit => Sys2Proof.Machine.execAdlinit s
  | .adlupd rs1 rs2 => Sys2Proof.Machine.execAdlupd rs1 rs2 s
  | .adlget rd => Sys2Proof.Machine.execAdlget rd s
  | .put16le rs1 rs2 => Sys2Proof.Machine.execPut16le rs1 rs2 s
  | .put16be rs1 rs2 => Sys2Proof.Machine.execPut16be rs1 rs2 s
  | .put32be rs1 rs2 => Sys2Proof.Machine.execPut32be rs1 rs2 s
  | .palpack rd rs1 rs2 rs3 rs4 => Sys2Proof.Machine.execPalpack rd rs1 rs2 rs3 rs4 s
  | .zframe rd rs1 rs2 rs3 rs4 => Sys2Proof.Machine.execZframe rd rs1 rs2 rs3 rs4 s
  | .chunk rd rs1 rs2 rs3 rs4 => Sys2Proof.Machine.execChunk rd rs1 rs2 rs3 rs4 s

end Sys2Proof.Machine
end

