-- ==== Sys2Proof/Machine/HostPort.lean ====
section
/-! DEFINITION. The host port: the six host actions, each an atomic step (20_memory.md R62; 30_encoding.md R81). -/

namespace Sys2Proof.Machine

/-- `Issue(w)` (R81): in fail-stop only the `CLRERR` word acts and any other word changes nothing (R206); otherwise a word
that is no command raises `IllegalCommand` (R88, R89) and a command is executed. -/
def issue (w : Word) (s : State) : Host.Outcome State Fault Refusal :=
  if s.failStop then
    match decode w with
    | .ok .clrerr => exec .clrerr s
    | _ => .next s
  else
    match decode w with
    | .ok i => exec i s
    | .error _ => raise .illegalCommand w s

/-- A host read: the answer is recorded on the host's side, the block does not change (R62). -/
def answer (s : State) (r : HostAnswer) : State := { s with answers := s.answers ++ [r] }

/-- `HostWriteMem(a, b)` with `a < MEMSIZE`: `M[a] <- b` (R62). -/
def hostWriteMem (a : Nat) (b : Byte) (s : State) : Host.Outcome State Fault Refusal :=
  if a < s.M.size.val then .next (withM s (s.M.write a b)) else .fault (.hostOutsideM a)

/-- `HostReadMem(a)` with `a < MEMSIZE`: returns `M[a]` (R62). -/
def hostReadMem (a : Nat) (s : State) : Host.Outcome State Fault Refusal :=
  if a < s.M.size.val then .next (answer s (.mem a (s.M.read a))) else .fault (.hostOutsideM a)

/-- One host action (R62). -/
def perform (h : HostAction) (s : State) : Host.Outcome State Fault Refusal :=
  match h with
  | .issue w => issue w s
  | .writeMem a b => hostWriteMem a b s
  | .readMem a => hostReadMem a s
  | .readReg i => .next (answer s (.reg i (readX s i)))
  | .readCsr k => .next (answer s (.csr k (csrValue s k)))
  | .reset => .next (resetBlock s)

/-- The host's next action, if it takes one, is performed; if it takes none, the block is idle and holds all its state
(60_exceptions.md R220; log 7). -/
def hostTurn (s : State) : Host.Outcome State Fault Refusal :=
  match s.pending with
  | [] => .next s
  | h :: rest => perform h { s with pending := rest }

/-- The state in which the host's very next action is to issue the word. -/
def issueNext (s : State) (w : Word) : State := { s with pending := .issue w :: s.pending }

end Sys2Proof.Machine
end

