-- ==== Sys2Proof/Machine/Step.lean ====
section
/-! DEFINITION. One step: the host's next action and what the block does with it (20_memory.md R60 to R62). -/

namespace Sys2Proof.Machine

/-- One action of the total order of R61. -/
def step (s : State) : Host.Outcome State Fault Refusal := hostTurn s

/-- PNGCORE fetches nothing (10_state.md R24): the host issues words, so the word is put where `step` takes its next one,
at the head of the host's coming actions (log 6). -/
def State.withFetchWord (s : State) (nbits w : Nat) : State := issueNext s (tableWord nbits w)

end Sys2Proof.Machine
end

