-- ==== Sys2Proof/Machine/Pseudo.lean ====
section
/-! DEFINITION. The pseudo-instructions LI32 and ENCODE (30_encoding.md R95, R96; 45_encode_sequence.md), and the host
actions that run a list of commands (30_encoding.md R93). -/

namespace Sys2Proof.Machine

/-- "running" a program: the host issues its words in order (R93). -/
def issueAll (is : List Instr) : List HostAction := is.map (fun i => .issue (encode i))

/-- `LI32 rd, imm32`: exactly `LI rd, imm32[15:0]`, `LIH rd, imm32[31:16]` (R95). -/
def li32 (rd : Reg) (v : Word) : List Instr := [.li rd (v.setWidth 16), .lih rd ((v >>> 16).setWidth 16)]

/-- The eight assemble-time constants of `ENCODE` (R180). -/
structure EncodeArgs where
  OUT : Word
  PAL : Word
  PALLEN : Word
  COUNT : Word
  PIX : Word
  W : Word
  H : Word
  SCR : Word
  deriving DecidableEq, Repr

/-- The four chunk type tags, first character in bits 31:24 (20_memory.md R52). -/
def tagIHDR : Word := 0x49484452
def tagPLTE : Word := 0x504C5445
def tagIDAT : Word := 0x49444154
def tagIEND : Word := 0x49454E44

/-- Step 1 of R181: pack the palette. -/
def encodePalette (e : EncodeArgs) : List Instr :=
  li32 1 (e.SCR + 16) ++ li32 2 e.PAL ++ li32 3 e.PALLEN ++ li32 4 e.COUNT ++ [.palpack 9 1 2 3 4]

/-- Step 2 of R181: frame the pixel rows. -/
def encodeRows (e : EncodeArgs) : List Instr :=
  li32 5 (e.SCR + 784) ++ li32 6 e.PIX ++ li32 7 e.W ++ li32 8 e.H ++ [.zframe 10 5 6 7 8]

/-- Step 3 of R181: the eight signature bytes. -/
def encodeSignature (e : EncodeArgs) : List Instr :=
  li32 11 e.OUT ++ li32 12 0x89504E47 ++ [.put32be 11 12] ++
  li32 11 (e.OUT + 4) ++ li32 12 0x0D0A1A0A ++ [.put32be 11 12]

/-- Step 4 of R181: the 13-byte IHDR payload, staged at `SCR` (R182). -/
def encodeHeader (e : EncodeArgs) : List Instr :=
  li32 11 e.SCR ++ [.put32be 11 7] ++
  li32 11 (e.SCR + 4) ++ [.put32be 11 8] ++
  li32 11 (e.SCR + 8) ++ li32 12 0x08030000 ++ [.put32be 11 12] ++
  li32 11 (e.SCR + 11) ++ li32 12 0x00000000 ++ [.put16be 11 12]

/-- Step 5 of R181: the four chunks, chained through `x11`. -/
def encodeChunks (e : EncodeArgs) : List Instr :=
  li32 11 (e.OUT + 8) ++ li32 12 tagIHDR ++ li32 13 e.SCR ++ li32 14 13 ++ [.chunk 11 11 12 13 14] ++
  li32 12 tagPLTE ++ [.chunk 11 11 12 1 9] ++
  li32 12 tagIDAT ++ [.chunk 11 11 12 5 10] ++
  li32 12 tagIEND ++ li32 14 0 ++ [.chunk 11 11 12 13 14]

/-- `ENCODE OUT, PAL, PALLEN, COUNT, PIX, W, H, SCR`: the 64 commands of R181, refused when a constant of the expansion
would not fit 32 bits (R180). -/
def encodeSeq (e : EncodeArgs) : Option (List Instr) :=
  if e.OUT.toNat + 8 < 2 ^ 32 ∧ e.SCR.toNat + 784 < 2 ^ 32 then
    some (encodePalette e ++ encodeRows e ++ encodeSignature e ++ encodeHeader e ++ encodeChunks e)
  else none

/-- The size of the PNG file: `69 + 3*COUNT + ZLen(W, H)` (R183). -/
def encodeTotal (e : EncodeArgs) : Nat := 69 + 3 * e.COUNT.toNat + zLen e.W.toNat e.H.toNat

end Sys2Proof.Machine
end

