-- ==== Sys2Proof/Machine/Asm.lean ====
section
/-! DEFINITION. The assembler: text lines to command words (30_encoding.md R93 to R96). Text is a list of characters, so
that the kernel can run it. What R93 leaves open (blanks, empty lines, letter case of hexadecimal digits) is log 13. -/

namespace Sys2Proof.Machine

/-- A line of assembler text. -/
abbrev Chars := List Char

/-- Blanks between tokens (log 13). -/
def isBlank (c : Char) : Bool := c == ' ' || c == '\t'

/-- The text without the blanks at its two ends. -/
def trimBlanks (l : Chars) : Chars := ((l.dropWhile isBlank).reverse.dropWhile isBlank).reverse

/-- "A comment starts with `;` and runs to the end of the line" (R93). -/
def dropComment (l : Chars) : Chars := l.takeWhile (· != ';')

/-- The pieces between commas. -/
def splitCommas : Chars → List Chars
  | [] => [[]]
  | c :: t =>
    if c = ',' then [] :: splitCommas t
    else match splitCommas t with
      | [] => [[c]]
      | h :: r => (c :: h) :: r

/-- The value of a digit in a base of at most 16. -/
def digitValue (base : Nat) (c : Char) : Option Nat :=
  let n := c.toNat
  let v := if 48 ≤ n ∧ n ≤ 57 then n - 48 else if 65 ≤ n ∧ n ≤ 70 then n - 55 else if 97 ≤ n ∧ n ≤ 102 then n - 87 else 16
  if v < base then some v else none

/-- The value of a string of digits, from the digits read so far. -/
def digitsValue (base : Nat) : Nat → Chars → Option Nat
  | acc, [] => some acc
  | acc, c :: t => (digitValue base c).bind (fun d => digitsValue base (acc * base + d) t)

/-- "a decimal number or a `0x` hexadecimal number" (R93). -/
def parseNumber : Chars → Option Nat
  | [] => none
  | '0' :: 'x' :: c :: t => digitsValue 16 0 (c :: t)
  | c :: t => digitsValue 10 0 (c :: t)

/-- A number below a bound. -/
def parseBelow (bound : Nat) (l : Chars) : Option Nat :=
  match parseNumber l with
  | some n => if n < bound then some n else none
  | none => none

/-- An immediate, `0 .. 65535` (R93). -/
def parseImm16 (l : Chars) : Option Half := (parseBelow (2 ^ 16) l).map (BitVec.ofNat 16)

/-- A 32-bit constant of a pseudo-instruction (R95, R180). -/
def parseImm32 (l : Chars) : Option Word := (parseBelow (2 ^ 32) l).map (BitVec.ofNat 32)

/-- "A register operand is `x0` .. `x15`" (R93; no aliases, R21). -/
def parseReg : Chars → Option Reg
  | ['x', c] => (digitValue 10 c).map (BitVec.ofNat 4)
  | ['x', '1', c] => (digitValue 6 c).map (fun d => BitVec.ofNat 4 (10 + d))
  | _ => none

/-- "A CSR operand is a CSR name (`STATUS`, `CFG`, `BANK`, `ERRINFO`) or its number" (R93). -/
def parseCsr (l : Chars) : Option Half :=
  if l = ['S', 'T', 'A', 'T', 'U', 'S'] then some 0
  else if l = ['C', 'F', 'G'] then some 1
  else if l = ['B', 'A', 'N', 'K'] then some 2
  else if l = ['E', 'R', 'R', 'I', 'N', 'F', 'O'] then some 3
  else parseImm16 l

/-- The operand list of a command without operands. -/
def noOperands (l : List Chars) (i : Instr) : Option (List Instr) := if l = [[]] then some [i] else none

/-- One register operand. -/
def oneReg (l : List Chars) (f : Reg → Instr) : Option (List Instr) :=
  match l with
  | [a] => do return [f (← parseReg a)]
  | _ => none

/-- Two register operands. -/
def twoRegs (l : List Chars) (f : Reg → Reg → Instr) : Option (List Instr) :=
  match l with
  | [a, b] => do return [f (← parseReg a) (← parseReg b)]
  | _ => none

/-- Three register operands. -/
def threeRegs (l : List Chars) (f : Reg → Reg → Reg → Instr) : Option (List Instr) :=
  match l with
  | [a, b, c] => do return [f (← parseReg a) (← parseReg b) (← parseReg c)]
  | _ => none

/-- Five register operands. -/
def fiveRegs (l : List Chars) (f : Reg → Reg → Reg → Reg → Reg → Instr) : Option (List Instr) :=
  match l with
  | [a, b, c, d, e] => do return [f (← parseReg a) (← parseReg b) (← parseReg c) (← parseReg d) (← parseReg e)]
  | _ => none

/-- A register and an immediate or CSR operand read by `p`. -/
def regAnd {α : Type} (l : List Chars) (p : Chars → Option α) (f : Reg → α → List Instr) : Option (List Instr) :=
  match l with
  | [a, b] => do return f (← parseReg a) (← p b)
  | _ => none

/-- The constants of `ENCODE` in the order of R96. -/
def parseEncodeArgs (l : List Chars) : Option EncodeArgs :=
  match l with
  | [a, b, c, d, e, f, g, h] => do
    return ⟨← parseImm32 a, ← parseImm32 b, ← parseImm32 c, ← parseImm32 d,
      ← parseImm32 e, ← parseImm32 f, ← parseImm32 g, ← parseImm32 h⟩
  | _ => none

/-- The commands of a mnemonic with its operands (R94 to R96). -/
def parseCommand (m : Chars) (l : List Chars) : Option (List Instr) :=
  if m = ['N', 'O', 'P'] then noOperands l .nop
  else if m = ['L', 'I'] then regAnd l parseImm16 (fun rd v => [.li rd v])
  else if m = ['L', 'I', 'H'] then regAnd l parseImm16 (fun rd v => [.lih rd v])
  else if m = ['C', 'S', 'R', 'R'] then regAnd l parseCsr (fun rd v => [.csrr rd v])
  else if m = ['C', 'S', 'R', 'W'] then regAnd l.reverse parseCsr (fun rs1 v => [.csrw v rs1])
  else if m = ['C', 'L', 'R', 'E', 'R', 'R'] then noOperands l .clrerr
  else if m = ['C', 'R', 'C', 'I', 'N', 'I', 'T'] then noOperands l .crcinit
  else if m = ['C', 'R', 'C', 'T', 'A', 'B'] then twoRegs l .crctab
  else if m = ['C', 'R', 'C', '3', '2'] then threeRegs l .crc32
  else if m = ['A', 'D', 'L', 'I', 'N', 'I', 'T'] then noOperands l .adlinit
  else if m = ['A', 'D', 'L', 'U', 'P', 'D'] then twoRegs l .adlupd
  else if m = ['A', 'D', 'L', 'G', 'E', 'T'] then oneReg l .adlget
  else if m = ['P', 'U', 'T', '1', '6', 'L', 'E'] then twoRegs l .put16le
  else if m = ['P', 'U', 'T', '1', '6', 'B', 'E'] then twoRegs l .put16be
  else if m = ['P', 'U', 'T', '3', '2', 'B', 'E'] then twoRegs l .put32be
  else if m = ['P', 'A', 'L', 'P', 'A', 'C', 'K'] then fiveRegs l .palpack
  else if m = ['Z', 'F', 'R', 'A', 'M', 'E'] then fiveRegs l .zframe
  else if m = ['C', 'H', 'U', 'N', 'K'] then fiveRegs l .chunk
  else if m = ['L', 'I', '3', '2'] then regAnd l parseImm32 (fun rd v => li32 rd v)
  else if m = ['E', 'N', 'C', 'O', 'D', 'E'] then (parseEncodeArgs l).bind encodeSeq
  else none

/-- One line: no command when nothing but blanks and a comment stands on it, else the mnemonic and its operands
separated by commas (R93). -/
def assembleLine (line : Chars) : Option (List Instr) :=
  let l := trimBlanks (dropComment line)
  if l = [] then some []
  else parseCommand (l.takeWhile (!isBlank ·)) ((splitCommas (l.dropWhile (!isBlank ·))).map trimBlanks)

/-- "A program is a finite list of lines; it assembles to the list of their 32-bit words in the same order" (R93). -/
def assemble : List Chars → Option (List Word)
  | [] => some []
  | line :: rest =>
    match assembleLine line, assemble rest with
    | some is, some ws => some (is.map encode ++ ws)
    | _, _ => none

end Sys2Proof.Machine
end

