-- ==== Sys2Proof/WellFormed.lean ====
section
/-! DEFINITION. Which commands meet the operand constraints of the command table (30_encoding.md R90). -/

namespace Sys2Proof

/-- The `constraint` column of opcode_table.json: the CSR number of `CSRR` is `0..3`, that of `CSRW` is 1 (`CFG`) or
2 (`BANK`) (R90). Register fields and immediates are in range by their types. A `CSRR` or `CSRW` that is not well-formed
still has a word that matches its row; its own rule raises `IllegalCommand` (R90, log 18). -/
def Instr.wellFormed : Instr → Bool
  | .csrr _ csr => csr.toNat < 4
  | .csrw csr _ => csr.toNat == 1 || csr.toNat == 2
  | .nop => true
  | .li _ _ => true
  | .lih _ _ => true
  | .clrerr => true
  | .crcinit => true
  | .crctab _ _ => true
  | .crc32 _ _ _ => true
  | .adlinit => true
  | .adlupd _ _ => true
  | .adlget _ => true
  | .put16le _ _ => true
  | .put16be _ _ => true
  | .put32be _ _ => true
  | .palpack _ _ _ _ _ => true
  | .zframe _ _ _ _ _ => true
  | .chunk _ _ _ _ _ => true

end Sys2Proof
end

