-- ==== Sys2Proof/Safety.lean ====
section
/-! DEFINITION. What holds of every state a run reaches, and the terms the statements use: frames, regions, and the
spec's own alternative forms (bit-serial CRC, error table, stored-block decoding) that the machine does not use. -/

namespace Sys2Proof.Machine

/-! ### The invariant -/

/-- What the spec says holds after reset and is kept by every command and host action. -/
structure State.Inv (s : State) : Prop where
  /-- `MEMSIZE` is at least 1 (00_scope.md R9). -/
  memSize_pos : 0 < s.M.size.val
  /-- `M` is in its canonical form and lists no address outside `0 .. MEMSIZE-1` (10_state.md R30). -/
  mem_wf : s.M.wf
  /-- `T`, once valid, is the table of 40_checksum.md R110 (10_state.md R34, R35). -/
  table : s.TV = true → s.T = crcTable
  /-- The sums are in `0 .. 65520` (10_state.md R33). -/
  sum_a : s.A.toNat ≤ 65520
  sum_b : s.B.toNat ≤ 65520
  /-- "values 8 to 255 are never stored" in `ERR` (60_exceptions.md R200). -/
  err_le : s.ERR.toNat ≤ 7
  /-- `ERRINFO` is 0 when `ERR = 0` (10_state.md R31). -/
  errinfo_zero : s.ERR = 0 → s.ERRINFO = 0

/-! ### Frames -/

/-- The memories have the same size and read alike outside the `n` bytes at `a`. -/
def Memory.sameOutside (m m' : Memory) (a n : Nat) : Prop :=
  m'.size = m.size ∧ ∀ b, b < a ∨ a + n ≤ b → m'.read b = m.read b

/-- Every register but `x[rd]` is unchanged. -/
def State.otherX (s t : State) (rd : Reg) : Prop := ∀ r, r ≠ rd → readX t r = readX s r

/-- Nothing but `x[rd]` is changed. -/
def State.onlyX (s t : State) (rd : Reg) : Prop := t = { s with x := t.x } ∧ s.otherX t rd

/-- Nothing but the `n` bytes of `M` at `a` is changed. -/
def State.onlyM (s t : State) (a n : Nat) : Prop := t = { s with M := t.M } ∧ s.M.sameOutside t.M a n

/-- The state with an error recorded: what `raise` leaves (R204). -/
def State.erring (s : State) (code : Byte) (w : Word) : State := { s with ERR := code, ERRINFO := w }

/-- The byte that a command reads at `a` when it turns `m` into `m'` by writing each byte from `lo` on once, in ascending order,
and has so far written those below `hi`: what it wrote there, or else what stood there before (20_memory.md R60, R69). -/
def Memory.seen (m m' : Memory) (lo hi a : Nat) : Byte := if lo ≤ a ∧ a < hi then m'.read a else m.read a

/-- The regions `(a, n)` and `(b, k)` share no byte (20_memory.md R69). -/
def disjoint (a n b k : Nat) : Prop := ∀ c, ¬ ((a ≤ c ∧ c < a + n) ∧ (b ≤ c ∧ c < b + k))

/-! ### Operands (10_state.md R22) -/

/-- The register a command may write: its `rd` field, if it has one. -/
def destOf : Instr → Option Reg
  | .li rd _ => some rd
  | .lih rd _ => some rd
  | .csrr rd _ => some rd
  | .crctab rd _ => some rd
  | .crc32 rd _ _ => some rd
  | .adlget rd => some rd
  | .palpack rd _ _ _ _ => some rd
  | .zframe rd _ _ _ _ => some rd
  | .chunk rd _ _ _ _ => some rd
  | .nop => none
  | .csrw _ _ => none
  | .clrerr => none
  | .crcinit => none
  | .adlinit => none
  | .adlupd _ _ => none
  | .put16le _ _ => none
  | .put16be _ _ => none
  | .put32be _ _ => none

/-- The registers a command reads: its source fields, and `rd` for `LIH`. -/
def sourcesOf : Instr → List Reg
  | .lih rd _ => [rd]
  | .csrw _ rs1 => [rs1]
  | .crctab _ rs1 => [rs1]
  | .crc32 _ rs1 rs2 => [rs1, rs2]
  | .adlupd rs1 rs2 => [rs1, rs2]
  | .put16le rs1 rs2 => [rs1, rs2]
  | .put16be rs1 rs2 => [rs1, rs2]
  | .put32be rs1 rs2 => [rs1, rs2]
  | .palpack _ rs1 rs2 rs3 rs4 => [rs1, rs2, rs3, rs4]
  | .zframe _ rs1 rs2 rs3 rs4 => [rs1, rs2, rs3, rs4]
  | .chunk _ rs1 rs2 rs3 rs4 => [rs1, rs2, rs3, rs4]
  | .nop => []
  | .li _ _ => []
  | .csrr _ _ => []
  | .clrerr => []
  | .crcinit => []
  | .adlinit => []
  | .adlget _ => []

/-- The number of a CSR (10_state.md R26). -/
def csrNumber : Csr → Half
  | .status => 0
  | .cfg => 1
  | .bank => 2
  | .errinfo => 3

/-! ### The error table (60_exceptions.md R201, in the priority of R203) -/

/-- 2 (`Bounds`) unless every region lies in `M`, else 0. -/
def boundsCode (s : State) (regions : List (Nat × Nat)) : Nat :=
  if regions.all (fun r => r.1 + r.2 ≤ s.M.size.val) then 0 else 2

/-- The code that a command raises in a state, 0 when it raises none. -/
def errorCode (s : State) (i : Instr) : Nat :=
  let v := fun r => (readX s r).toNat
  match i with
  | .nop => 0
  | .li _ _ => 0
  | .lih _ _ => 0
  | .csrr _ csr => if 4 ≤ csr.toNat then 1 else 0
  | .csrw csr _ => if csr.toNat = 0 ∨ csr.toNat = 3 ∨ 4 ≤ csr.toNat then 1 else 0
  | .clrerr => 0
  | .crcinit => 0
  | .crctab _ _ => 0
  | .crc32 _ rs1 rs2 => boundsCode s [(v rs1, v rs2)]
  | .adlinit => 0
  | .adlupd rs1 rs2 => boundsCode s [(v rs1, v rs2)]
  | .adlget _ => 0
  | .put16le rs1 _ => boundsCode s [(v rs1, 2)]
  | .put16be rs1 _ => boundsCode s [(v rs1, 2)]
  | .put32be rs1 _ => boundsCode s [(v rs1, 4)]
  | .palpack _ rs1 rs2 rs3 rs4 =>
    if v rs3 % 4 ≠ 0 then 3
    else if 256 < v rs4 then 4
    else if v rs3 < 4 * v rs4 then 5
    else boundsCode s [(v rs2, v rs3), (v rs1, 3 * v rs4)]
  | .zframe _ rs1 rs2 rs3 rs4 =>
    if 65535 < v rs3 then 6
    else if s.HIATTR = true ∧ s.BANK = 0 then 7
    else boundsCode s [(v rs1, 6 + v rs4 * (v rs3 + 6)), (v rs2, v rs3 * v rs4)]
  | .chunk _ rs1 _ rs3 rs4 => boundsCode s [(v rs1, 12 + v rs4), (v rs3, v rs4)]

/-! ### The bit-serial CRC (40_checksum.md R112) -/

/-- One bit: `(c[0] = 1) ? (0xEDB88320 xor (c >> 1)) : (c >> 1)`. -/
def crcSerialBit (c : Word) : Word := (c >>> 1) ^^^ (if c.getLsbD 0 then 0xEDB88320 else 0)

/-- One byte: `c xor d`, then eight bits. -/
def crcSerialByte (c : Word) (d : Byte) : Word := crcSerialBit^[8] (c ^^^ d.setWidth 32)

/-- The CRC-32 of a byte sequence without a table (R113). -/
def crcSerial (bs : List Byte) : Word := bs.foldl crcSerialByte 0xFFFFFFFF ^^^ 0xFFFFFFFF

/-! ### Decoding of stored blocks (43_zframe.md R160(d)) -/

/-- Splits a deflate stream of stored blocks: a final-flag byte, a length and its complement, both 16-bit little-endian,
then that many bytes, until the block whose flag is 1. Answers the blocks' contents and what follows the last one.
`fuel` bounds the number of blocks. -/
def inflateStored : Nat → List Byte → Option (List (List Byte) × List Byte)
  | fuel + 1, flag :: l0 :: l1 :: n0 :: n1 :: rest =>
    let len := l0.toNat + 256 * l1.toNat
    if (flag = 0 ∨ flag = 1) ∧ len + (n0.toNat + 256 * n1.toNat) = 65535 ∧ len ≤ rest.length then
      if flag = 1 then some ([rest.take len], rest.drop len)
      else (inflateStored fuel (rest.drop len)).map (fun r => (rest.take len :: r.1, r.2))
    else none
  | _, _ => none

/-! ### The file that `ENCODE` writes (45_encode_sequence.md R183, R186) -/

/-- A chunk: length, type, payload, CRC-32 of type and payload (44_chunk.md R171). -/
def pngChunk (ty : Word) (payload : List Byte) : List Byte :=
  be32 (BitVec.ofNat 32 payload.length) ++ be32 ty ++ payload ++ be32 (crcSerial (be32 ty ++ payload))

/-- The packed palette: `(R, G, B)` of each `(B, G, R, A)` entry at `src` (42_palette.md R140). -/
def packedPalette (m : Memory) (src count : Nat) : List Byte :=
  (List.range count).flatMap (fun i => [m.read (src + 4 * i + 2), m.read (src + 4 * i + 1), m.read (src + 4 * i)])

/-- Row `y` as it is emitted: the filter byte, then each pixel, reduced in hi-attribute mode (43_zframe.md R156). -/
def scanline (hiattr : Bool) (bank : Word) (m : Memory) (src W y : Nat) : List Byte :=
  filterNone :: (List.range W).map (fun k => reducePixel hiattr bank (m.read (src + y * W + k)))

/-- The zlib stream of `H` rows: header, a stored block for each row, the Adler-32 of the rows (43_zframe.md R151). -/
def zlibStream (hiattr : Bool) (bank : Word) (m : Memory) (src W H : Nat) : List Byte :=
  zlibHeader ++ (List.range H).flatMap (fun y => blockHeader W H y ++ scanline hiattr bank m src W y) ++
    zTrailer (adlerBytes (1, 0) ((List.range H).flatMap (scanline hiattr bank m src W)))

/-- The PNG file of an `ENCODE` started in a state: signature, IHDR, PLTE, IDAT, IEND. -/
def pngFile (s : State) (e : EncodeArgs) : List Byte :=
  [0x89, 0x50, 0x4E, 0x47, 0x0D, 0x0A, 0x1A, 0x0A] ++
  pngChunk tagIHDR (be32 e.W ++ be32 e.H ++ [0x08, 0x03, 0x00, 0x00, 0x00]) ++
  pngChunk tagPLTE (packedPalette s.M e.PAL.toNat e.COUNT.toNat) ++
  pngChunk tagIDAT (zlibStream s.HIATTR s.BANK s.M e.PIX.toNat e.W.toNat e.H.toNat) ++
  pngChunk tagIEND []

/-- The size of the scratch region of `ENCODE` (R180). -/
def encodeScratch (e : EncodeArgs) : Nat := 784 + zLen e.W.toNat e.H.toNat

/-- The preconditions of R180: no error recorded, the four regions in `M` and pairwise disjoint, and arguments that the checks
of `PALPACK` and `ZFRAME` accept. -/
structure EncodeReady (s : State) (e : EncodeArgs) : Prop where
  running : s.ERR = 0
  palette : e.PALLEN.toNat % 4 = 0
  count : e.COUNT.toNat ≤ 256
  fit : 4 * e.COUNT.toNat ≤ e.PALLEN.toNat
  width : e.W.toNat ≤ 65535
  bank : ¬ (s.HIATTR = true ∧ s.BANK = 0)
  out_in : e.OUT.toNat + encodeTotal e ≤ s.M.size.val
  pal_in : e.PAL.toNat + e.PALLEN.toNat ≤ s.M.size.val
  pix_in : e.PIX.toNat + e.W.toNat * e.H.toNat ≤ s.M.size.val
  scr_in : e.SCR.toNat + encodeScratch e ≤ s.M.size.val
  out_pal : disjoint e.OUT.toNat (encodeTotal e) e.PAL.toNat e.PALLEN.toNat
  out_pix : disjoint e.OUT.toNat (encodeTotal e) e.PIX.toNat (e.W.toNat * e.H.toNat)
  out_scr : disjoint e.OUT.toNat (encodeTotal e) e.SCR.toNat (encodeScratch e)
  pal_pix : disjoint e.PAL.toNat e.PALLEN.toNat e.PIX.toNat (e.W.toNat * e.H.toNat)
  pal_scr : disjoint e.PAL.toNat e.PALLEN.toNat e.SCR.toNat (encodeScratch e)
  pix_scr : disjoint e.PIX.toNat (e.W.toNat * e.H.toNat) e.SCR.toNat (encodeScratch e)

end Sys2Proof.Machine
end

