-- ==== Sys2Proof/Certificates/Slice0/Obligations.lean ====
section
/-! DEFINITION. The statements for the provers, from the numbered rules of spec/. None is proved here. -/

open Sys2Proof Sys2Proof.Machine

/-! ### Encoding (30_encoding.md) -/

/-- For every command with every operand value, decoding its word gives it back (R81, R86). -/
def Obligations.DecodeOfEncode : Prop := ∀ i : Instr, decode (encode i) = .ok i

/-- A word that decodes to a command is that command's word: no bit of a legal word is dropped (R86, R89, R91). -/
def Obligations.EncodeOfDecode : Prop := ∀ (w : Word) (i : Instr), decode w = .ok i → encode i = w

/-- R81, R86: a word is a row's command if and only if `(w and mask) = match`, and at most one row matches any word. -/
def Obligations.DecodeFollowsTheTable : Prop :=
  ∀ w : Word,
    (∀ r ∈ rows, w &&& r.mask = r.pattern → decode w = .ok (r.build w)) ∧
    ((∀ r ∈ rows, w &&& r.mask ≠ r.pattern) → ∃ e, decode w = .error e) ∧
    (∀ r ∈ rows, ∀ r' ∈ rows, w &&& r.mask = r.pattern → w &&& r'.mask = r'.pattern → r.pattern = r'.pattern)

/-- R88: an opcode outside the table matches no row and raises `IllegalCommand`. -/
def Obligations.UnknownOpcodeRaises : Prop :=
  ∀ (s : State) (w : Word), s.ERR = 0 →
    opField w ∉ ([0x00, 0x01, 0x02, 0x03, 0x04, 0x05, 0x10, 0x11, 0x12, 0x18, 0x19, 0x1A, 0x20, 0x21, 0x22, 0x30, 0x40,
      0x50] : List Byte) →
    (∀ r ∈ rows, w &&& r.mask ≠ r.pattern) ∧ issue w s = .next (s.erring 1 w)

/-- R89: an opcode of the table with a non-zero bit in a field the command does not use matches no row and raises
`IllegalCommand`; the three words are the rule's examples. -/
def Obligations.UnusedFieldNonZeroRaises : Prop :=
  ∀ (s : State) (w : Word), s.ERR = 0 →
    ((∃ r ∈ rows, opField w = opField r.pattern ∧ w &&& r.mask ≠ r.pattern) ∨
      w = 0x00000001 ∨ w = 0x1A100010 ∨ w = 0x01110005) →
    (∀ r ∈ rows, w &&& r.mask ≠ r.pattern) ∧ issue w s = .next (s.erring 1 w)

/-- R90: bad CSR numbers match their row and raise `IllegalCommand` from the command's own rule. -/
def Obligations.BadCsrNumberRaises : Prop :=
  ∀ (s : State) (r : Reg) (csr : Half),
    decode (encode (.csrr r csr)) = .ok (.csrr r csr) ∧ decode (encode (.csrw csr r)) = .ok (.csrw csr r) ∧
    (4 ≤ csr.toNat → exec (.csrr r csr) s = .next (s.erring 1 (encode (.csrr r csr)))) ∧
    (csr.toNat = 0 ∨ csr.toNat = 3 ∨ 4 ≤ csr.toNat →
      exec (.csrw csr r) s = .next (s.erring 1 (encode (.csrw csr r))))

/-- Words written out from the encoding column of the table decode to their commands (R86). -/
def Obligations.EncodingExamples : Prop :=
  decode 0x00000000 = .ok .nop ∧ decode 0x01300008 = .ok (.li 3 8) ∧ decode 0x02C08950 = .ok (.lih 12 0x8950) ∧
  decode 0x04010002 = .ok (.csrw 2 1) ∧ decode 0x12312000 = .ok (.crc32 3 1 2) ∧ decode 0x1A300000 = .ok (.adlget 3) ∧
  decode 0x21012000 = .ok (.put16be 1 2) ∧ decode 0x30512340 = .ok (.palpack 5 1 2 3 4) ∧
  decode 0x40A56780 = .ok (.zframe 10 5 6 7 8) ∧ decode 0x50663780 = .ok (.chunk 6 6 3 7 8)

/-! ### Issuing and the step (30_encoding.md R81; 20_memory.md R62) -/

/-- A step performs the host's next action; when that is to issue a word of a command and the block is not in fail-stop,
the step is `exec` of the command; without an action the block is idle (log 6, log 7 for the host's list). -/
def Obligations.StepRunsIssuedCommand : Prop :=
  ∀ (s : State),
    (∀ w rest i, s.pending = .issue w :: rest → s.ERR = 0 → decode w = .ok i →
      step s = exec i { s with pending := rest }) ∧
    (∀ h rest, s.pending = h :: rest → step s = perform h { s with pending := rest }) ∧
    (s.pending = [] → step s = .next s)

/-- In fail-stop a word other than `CLRERR`'s changes no state, legal or not; the host's reads and writes work (R206). That a
read's answer goes to a list in the state is the model's choice (log 8). -/
def Obligations.FailStopIgnoresWords : Prop :=
  ∀ (s : State), s.ERR ≠ 0 →
    (∀ w : Word, w ≠ 0x05000000 → issue w s = .next s) ∧
    (∀ (a : Nat) (b : Byte), a < s.M.size.val →
      perform (.readMem a) s = .next { s with answers := s.answers ++ [.mem a (s.M.read a)] } ∧
      ∃ t, perform (.writeMem a b) s = .next t ∧ s.onlyM t a 1 ∧ t.M.read a = b) ∧
    (∀ i, perform (.readReg i) s = .next { s with answers := s.answers ++ [.reg i (readX s i)] }) ∧
    (∀ k, perform (.readCsr k) s = .next { s with answers := s.answers ++ [.csr k (csrValue s k)] })

/-- R207: `CLRERR` is the only way out of fail-stop other than reset, and it clears the record and restores nothing. -/
def Obligations.OnlyClrerrOrResetLeavesFailStop : Prop :=
  ∀ (s t : State), s.ERR ≠ 0 → step s = .next t → t.ERR = 0 →
    ∃ rest, (s.pending = .issue 0x05000000 :: rest ∧ t = { s with ERR := 0, ERRINFO := 0, pending := rest }) ∨
      s.pending = .reset :: rest

/-- R205, R202: a word that raises changes `ERR` and `ERRINFO` and nothing else, and `ERRINFO` is the whole word. -/
def Obligations.ErrorsArePrecise : Prop :=
  ∀ (s t : State) (w : Word), s.ERR = 0 → issue w s = .next t → t.ERR ≠ 0 → t = { s with ERR := t.ERR, ERRINFO := w }

/-- R201, R203: every command completes, and it raises exactly the error of the table, in the priority of R203; every word
that is no command raises `IllegalCommand`. -/
def Obligations.ErrorConditions : Prop :=
  ∀ (s : State), s.ERR = 0 →
    (∀ i, ∃ t, exec i s = .next t ∧ t.ERR.toNat = errorCode s i) ∧
    (∀ w, (∀ i, encode i ≠ w) → issue w s = .next (s.erring 1 w))

/-- No command and no word stops the machine (R60); a step stops only on a host access outside `M`, which is no legal
action of the host (R62, log 9). -/
def Obligations.StopsOnlyOnHostAccessOutsideM : Prop :=
  (∀ w s, ∃ t, issue w s = .next t) ∧
  ∀ (s : State), (∃ t, step s = .next t) ∨
    ∃ a rest, s.M.size.val ≤ a ∧ step s = .fault (.hostOutsideM a) ∧
      (s.pending = .readMem a :: rest ∨ ∃ b, s.pending = .writeMem a b :: rest)

/-! ### Invariants and whole-machine rules -/

/-- Every step keeps the invariant (R30, R31, R33, R34, R200; 00_scope.md R9). -/
def Obligations.StepKeepsInvariant : Prop := ∀ (s t : State), s.Inv → step s = .next t → t.Inv

/-- The reset state has the invariant. -/
def Obligations.ResetHasInvariant : Prop := State.reset.Inv

/-- The reset values of R37, after the host action `Reset` in any state and in `State.reset`. The host's side and `MEMSIZE`
are no state of the block and stay. -/
def Obligations.ResetValues : Prop :=
  (∀ (s : State), ∃ t, perform .reset s = .next t ∧
    (∀ i, readX t i = 0) ∧ t.TV = false ∧ t.A = 1 ∧ t.B = 0 ∧ t.HIATTR = false ∧ t.BANK = 0 ∧ t.ERR = 0 ∧ t.ERRINFO = 0 ∧
    t.M.size = s.M.size ∧ t.M.wf ∧ t.pending = s.pending ∧ t.answers = s.answers) ∧
  (∀ i, readX State.reset i = 0) ∧ State.reset.TV = false ∧ State.reset.A = 1 ∧ State.reset.B = 0 ∧
    State.reset.HIATTR = false ∧ State.reset.BANK = 0 ∧ State.reset.ERR = 0 ∧ State.reset.ERRINFO = 0

/-- R28, R29: `HIATTR` and `BANK` are written by `CSRW` only (and by reset). -/
def Obligations.ConfigurationWrittenByCsrwOnly : Prop :=
  ∀ (s t : State), step s = .next t → (t.HIATTR ≠ s.HIATTR ∨ t.BANK ≠ s.BANK) →
    ∃ rest, s.pending = .reset :: rest ∨ ∃ csr r, s.pending = .issue (encode (.csrw csr r)) :: rest ∧ s.ERR = 0

/-- R33: `A` and `B` are written by `ADLINIT`, `ADLUPD` and `ZFRAME` only (and by reset). -/
def Obligations.SumsWrittenByAdlerCommandsOnly : Prop :=
  ∀ (s t : State), step s = .next t → (t.A ≠ s.A ∨ t.B ≠ s.B) →
    ∃ rest, s.pending = .reset :: rest ∨ (s.ERR = 0 ∧
      (s.pending = .issue (encode .adlinit) :: rest ∨ (∃ p q, s.pending = .issue (encode (.adlupd p q)) :: rest) ∨
        ∃ d p q r u, s.pending = .issue (encode (.zframe d p q r u)) :: rest))

/-- R34, R35: but for a reset, `TV` is never cleared, `T` is written only while `TV = 0`, and only `CRCINIT`, `CRCTAB`, `CRC32`
and `CHUNK` do so. Of `T` after a reset nothing is said: R230 leaves its cells arbitrary (log 5). -/
def Obligations.TableBuiltOnce : Prop :=
  ∀ (s t : State), step s = .next t →
    (∃ rest, s.pending = .reset :: rest) ∨
    ((s.TV = true → t.T = s.T ∧ t.TV = true) ∧
      (s.TV = false → (t.TV = true ∨ t.T ≠ s.T) → t.TV = true ∧ t.T = crcTable ∧ ∃ rest,
        s.pending = .issue (encode .crcinit) :: rest ∨ (∃ d p, s.pending = .issue (encode (.crctab d p)) :: rest) ∨
        (∃ d p q, s.pending = .issue (encode (.crc32 d p q)) :: rest) ∨
        ∃ d p q r u, s.pending = .issue (encode (.chunk d p q r u)) :: rest))

/-- R34, U6: while `TV = 0` no rule reads `T`: two states that differ only in `T` step alike, and once `TV = 1` they are equal.
So the contents that State.reset gives `T` (log 4) can be seen by nothing. That a `Reset` of two equal memories leaves
equal ones is the model's choice (log 3). -/
def Obligations.UnbuiltTableIsInvisible : Prop :=
  ∀ (s : State) (T' : Vector Word 256), s.TV = false →
    (∀ t, step s = .next t → ∃ t', step { s with T := T' } = .next t' ∧
      t' = { t with T := t'.T } ∧ (t.TV = true → t' = t)) ∧
    (∀ f, step s = .fault f → step { s with T := T' } = .fault f)

/-- R30: `M` is written by `PUT16LE`, `PUT16BE`, `PUT32BE`, `PALPACK`, `ZFRAME` and `CHUNK` (and by the host and reset), no
step changes `MEMSIZE` (00_scope.md R9). -/
def Obligations.MemoryWrittenByWritersOnly : Prop :=
  ∀ (s t : State), step s = .next t → t.M.size = s.M.size ∧
    (t.M ≠ s.M → ∃ rest, s.pending = .reset :: rest ∨ (∃ a b, s.pending = .writeMem a b :: rest) ∨
      ∃ i, s.pending = .issue (encode i) :: rest ∧ ((∃ p q, i = .put16le p q ∨ i = .put16be p q ∨ i = .put32be p q) ∨
        ∃ d p q r u, i = .palpack d p q r u ∨ i = .zframe d p q r u ∨ i = .chunk d p q r u))

/-- R22: a command writes at most the register its `rd` field names, and none when it raises. -/
def Obligations.OnlyDestinationRegisterWritten : Prop :=
  ∀ (i : Instr) (s t : State) (r : Reg), exec i s = .next t →
    (destOf i ≠ some r → readX t r = readX s r) ∧ (s.ERR = 0 → t.ERR ≠ 0 → readX t r = readX s r)

/-- R22, R14: a command reads no register but those its source fields name: two states that agree on those and on
everything but registers give results that agree on everything but the registers not written. -/
def Obligations.OnlySourceRegistersRead : Prop :=
  ∀ (i : Instr) (s t : State) (y : Vector Word 16), s.ERR = 0 → (∀ r ∈ sourcesOf i, y[r.toNat] = readX s r) →
    exec i s = .next t →
    ∃ u, exec i { s with x := y } = .next u ∧ u = { t with x := u.x } ∧
      (t.ERR = 0 → ∀ r, destOf i = some r → readX u r = readX t r)

/-! ### Control commands (46_control.md) -/

/-- R190: `NOP` changes nothing; the other words with `op = 0` are illegal. -/
def Obligations.NopDoesNothing : Prop :=
  ∀ (s : State), exec .nop s = .next s ∧ issue 0 s = .next s ∧
    ∀ w : Word, w ≠ 0 → w.toNat < 2 ^ 24 → s.ERR = 0 → issue w s = .next (s.erring 1 w)

/-- R191: `LI`, a format I word, loads the zero-extended immediate. -/
def Obligations.LiLoadsImmediate : Prop :=
  ∀ (s : State) (rd : Reg) (imm : Half), encode (.li rd imm) = formatI 0x01 rd 0 imm ∧
    ∃ t, exec (.li rd imm) s = .next t ∧ (readX t rd).toNat = imm.toNat ∧ s.onlyX t rd

/-- R192: `LIH`, a format I word, loads the high half and keeps the low half. -/
def Obligations.LihLoadsHighHalf : Prop :=
  ∀ (s : State) (rd : Reg) (imm : Half), encode (.lih rd imm) = formatI 0x02 rd 0 imm ∧
    ∃ t, exec (.lih rd imm) s = .next t ∧ (readX t rd).toNat = imm.toNat * 2 ^ 16 + (readX s rd).toNat % 2 ^ 16 ∧ s.onlyX t rd

/-- R193: `CSRR` reads the four CSRs and raises `IllegalCommand` for any other number. -/
def Obligations.CsrrReadsCsr : Prop :=
  ∀ (s : State) (rd : Reg) (csr : Half),
    (csr.toNat < 4 → ∃ t, exec (.csrr rd csr) s = .next t ∧ s.onlyX t rd ∧
      (csr.toNat = 0 → (readX t rd).toNat = 256 * s.TV.toNat + s.ERR.toNat) ∧
      (csr.toNat = 1 → (readX t rd).toNat = s.HIATTR.toNat) ∧
      (csr.toNat = 2 → readX t rd = s.BANK) ∧
      (csr.toNat = 3 → readX t rd = s.ERRINFO)) ∧
    (4 ≤ csr.toNat → exec (.csrr rd csr) s = .next (s.erring 1 (encode (.csrr rd csr))))

/-- R194: `CSRW` writes `CFG` (bit 0 only) or `BANK` and raises `IllegalCommand` for any other number. -/
def Obligations.CsrwWritesCsr : Prop :=
  ∀ (s : State) (csr : Half) (r : Reg),
    (csr.toNat = 1 → ∃ t, exec (.csrw csr r) s = .next t ∧ t = { s with HIATTR := t.HIATTR } ∧
      t.HIATTR.toNat = (readX s r).toNat % 2) ∧
    (csr.toNat = 2 → exec (.csrw csr r) s = .next { s with BANK := readX s r }) ∧
    (csr.toNat ≠ 1 → csr.toNat ≠ 2 → exec (.csrw csr r) s = .next (s.erring 1 (encode (.csrw csr r))))

/-- R195: `CLRERR` clears `ERR` and `ERRINFO` and nothing else, in fail-stop too, where it is the only command that
executes; with `ERR = 0` already it changes nothing. -/
def Obligations.ClrerrClearsRecord : Prop :=
  ∀ (s : State), exec .clrerr s = .next { s with ERR := 0, ERRINFO := 0 } ∧
    issue 0x05000000 s = .next { s with ERR := 0, ERRINFO := 0 } ∧
    (s.ERR ≠ 0 → ∀ w : Word, w ≠ 0x05000000 → issue w s = .next s) ∧
    (s.Inv → s.ERR = 0 → exec .clrerr s = .next s)

/-! ### Checksum engines (40_checksum.md) -/

/-- `CRCINIT` leaves the table of R110 in `T` (each entry eight bit-serial steps from its index), sets `TV` and changes nothing
else; with `TV = 1` already it changes nothing (R111, R114). -/
def Obligations.CrcinitBuildsTable : Prop :=
  ∀ (s : State), s.Inv → ∃ t, exec .crcinit s = .next t ∧
    (∀ n : Byte, tableAt t.T n = crcSerialBit^[8] (n.setWidth 32)) ∧ t = { s with T := t.T, TV := true } ∧
    (s.TV = true → t = s)

/-- `CRCTAB` reads the table entry of the low byte of its index register (R115). -/
def Obligations.CrctabReadsEntry : Prop :=
  ∀ (s : State) (rd rs1 : Reg), s.Inv → ∃ t, exec (.crctab rd rs1) s = .next t ∧
    readX t rd = crcSerialBit^[8] (BitVec.ofNat 32 ((readX s rs1).toNat % 256)) ∧
    t = { s with x := t.x, T := t.T, TV := true } ∧ s.otherX t rd

/-- The table is linear (95_test_vectors.md section 2.1): `T[n xor m] = T[n] xor T[m]`. -/
def Obligations.CrcTableIsLinear : Prop :=
  ∀ n m : Byte, tableAt crcTable (n ^^^ m) = tableAt crcTable n ^^^ tableAt crcTable m

/-- `CRC32` gives the bit-serial CRC-32 of the region, or raises `Bounds` and changes nothing else (R112, R113, R116). -/
def Obligations.Crc32OfRegion : Prop :=
  ∀ (s : State) (rd rs1 rs2 : Reg), s.Inv →
    ((readX s rs1).toNat + (readX s rs2).toNat ≤ s.M.size.val → ∃ t, exec (.crc32 rd rs1 rs2) s = .next t ∧
      readX t rd = crcSerial ((List.range (readX s rs2).toNat).map (fun k => s.M.read ((readX s rs1).toNat + k))) ∧
      t = { s with x := t.x, T := t.T, TV := true } ∧ s.otherX t rd) ∧
    (s.M.size.val < (readX s rs1).toNat + (readX s rs2).toNat →
      exec (.crc32 rd rs1 rs2) s = .next (s.erring 2 (encode (.crc32 rd rs1 rs2))))

/-- `ADLINIT` seeds the sums (R118); `ADLGET` reads `(B << 16) or A` and leaves them (R120). -/
def Obligations.AdlerSeedAndGet : Prop :=
  ∀ (s : State) (rd : Reg), encode .adlinit = 0x18000000 ∧ exec .adlinit s = .next { s with A := 1, B := 0 } ∧
    ∃ t, exec (.adlget rd) s = .next t ∧ (readX t rd).toNat = s.B.toNat * 2 ^ 16 + s.A.toNat ∧ s.onlyX t rd

/-- `ADLUPD` in closed form (R117, R119, R121(b)): with bytes `d_0 .. d_(n-1)`, `A` becomes `A + Σ d_k` and `B` becomes
`B + n*A + Σ (n-k)*d_k`, both mod 65521; or it raises `Bounds` and changes nothing else. -/
def Obligations.AdlupdClosedForm : Prop :=
  ∀ (s : State) (rs1 rs2 : Reg), s.Inv →
    ((readX s rs1).toNat + (readX s rs2).toNat ≤ s.M.size.val → ∃ t, exec (.adlupd rs1 rs2) s = .next t ∧
      t = { s with A := t.A, B := t.B } ∧
      t.A.toNat = (s.A.toNat + Finset.sum (Finset.range (readX s rs2).toNat)
        (fun k => (s.M.read ((readX s rs1).toNat + k)).toNat)) % 65521 ∧
      t.B.toNat = (s.B.toNat + (readX s rs2).toNat * s.A.toNat + Finset.sum (Finset.range (readX s rs2).toNat)
        (fun k => ((readX s rs2).toNat - k) * (s.M.read ((readX s rs1).toNat + k)).toNat)) % 65521) ∧
    (s.M.size.val < (readX s rs1).toNat + (readX s rs2).toNat →
      exec (.adlupd rs1 rs2) s = .next (s.erring 2 (encode (.adlupd rs1 rs2))))

/-- Incrementality (R121(a)): feeding a region in two parts by two `ADLUPD` leaves the same state as feeding it by one. -/
def Obligations.AdlerIsIncremental : Prop :=
  ∀ (s : State) (a p q p' q' u : Reg), readX s a = readX s p →
    (readX s p').toNat = (readX s p).toNat + (readX s q).toNat →
    (readX s u).toNat = (readX s q).toNat + (readX s q').toNat →
    (readX s p).toNat + (readX s u).toNat ≤ s.M.size.val →
    ∃ t v, exec (.adlupd p q) s = .next t ∧ exec (.adlupd p' q') t = .next v ∧ exec (.adlupd a u) s = .next v

/-! ### Packer (41_packer.md) -/

/-- R131: `PUT16LE` lays down the low half, least significant byte first; on `Bounds` neither byte is written. -/
def Obligations.Put16leWritesField : Prop :=
  ∀ (s : State) (rs1 rs2 : Reg),
    encode (.put16le rs1 rs2) = formatR 0x20 0 rs1 rs2 0 0 ∧
    ((readX s rs1).toNat + 2 ≤ s.M.size.val → ∃ t, exec (.put16le rs1 rs2) s = .next t ∧
      s.onlyM t (readX s rs1).toNat 2 ∧
      (t.M.read (readX s rs1).toNat).toNat = (readX s rs2).toNat % 256 ∧
      (t.M.read ((readX s rs1).toNat + 1)).toNat = (readX s rs2).toNat / 256 % 256) ∧
    (s.M.size.val < (readX s rs1).toNat + 2 →
      exec (.put16le rs1 rs2) s = .next (s.erring 2 (encode (.put16le rs1 rs2))))

/-- R132: `PUT16BE` lays down the low half, most significant byte first; on `Bounds` neither byte is written. -/
def Obligations.Put16beWritesField : Prop :=
  ∀ (s : State) (rs1 rs2 : Reg),
    encode (.put16be rs1 rs2) = formatR 0x21 0 rs1 rs2 0 0 ∧
    ((readX s rs1).toNat + 2 ≤ s.M.size.val → ∃ t, exec (.put16be rs1 rs2) s = .next t ∧
      s.onlyM t (readX s rs1).toNat 2 ∧
      (t.M.read (readX s rs1).toNat).toNat = (readX s rs2).toNat / 256 % 256 ∧
      (t.M.read ((readX s rs1).toNat + 1)).toNat = (readX s rs2).toNat % 256) ∧
    (s.M.size.val < (readX s rs1).toNat + 2 →
      exec (.put16be rs1 rs2) s = .next (s.erring 2 (encode (.put16be rs1 rs2))))

/-- R133: `PUT32BE` lays down all four bytes, most significant first; on `Bounds` no byte is written. -/
def Obligations.Put32beWritesField : Prop :=
  ∀ (s : State) (rs1 rs2 : Reg),
    encode (.put32be rs1 rs2) = formatR 0x22 0 rs1 rs2 0 0 ∧
    ((readX s rs1).toNat + 4 ≤ s.M.size.val → ∃ t, exec (.put32be rs1 rs2) s = .next t ∧
      s.onlyM t (readX s rs1).toNat 4 ∧
      ∀ k, k < 4 → (t.M.read ((readX s rs1).toNat + k)).toNat = (readX s rs2).toNat / 256 ^ (3 - k) % 256) ∧
    (s.M.size.val < (readX s rs1).toNat + 4 →
      exec (.put32be rs1 rs2) s = .next (s.erring 2 (encode (.put32be rs1 rs2))))

/-! ### Palette repacker (42_palette.md) -/

/-- `PALPACK` completes whenever its checks pass, returns `3 * count` and writes only the packed palette. Each output triple is
`(R, G, B)` of its input entry as it stands when the triples before it have been written, so overlapping regions give the
bytes of R69 too; when the regions are disjoint, or exactly in place, that is the entry from before (R140, R141, R143(g)). -/
def Obligations.PalpackRepacks : Prop :=
  ∀ (s : State) (rd rs1 rs2 rs3 rs4 : Reg) (dst src srclen count : Nat),
    dst = (readX s rs1).toNat → src = (readX s rs2).toNat → srclen = (readX s rs3).toNat → count = (readX s rs4).toNat →
    srclen % 4 = 0 → count ≤ 256 → 4 * count ≤ srclen → src + srclen ≤ s.M.size.val → dst + 3 * count ≤ s.M.size.val →
    ∃ t, exec (.palpack rd rs1 rs2 rs3 rs4) s = .next t ∧ (readX t rd).toNat = 3 * count ∧
      t = { s with x := t.x, M := t.M } ∧ s.otherX t rd ∧ s.M.sameOutside t.M dst (3 * count) ∧
      (∀ i, i < count →
        t.M.read (dst + 3 * i) = s.M.seen t.M dst (dst + 3 * i) (src + 4 * i + 2) ∧
        t.M.read (dst + 3 * i + 1) = s.M.seen t.M dst (dst + 3 * i) (src + 4 * i + 1) ∧
        t.M.read (dst + 3 * i + 2) = s.M.seen t.M dst (dst + 3 * i) (src + 4 * i)) ∧
      (disjoint src (4 * count) dst (3 * count) ∨ dst = src → ∀ i, i < count →
        t.M.read (dst + 3 * i) = s.M.read (src + 4 * i + 2) ∧
        t.M.read (dst + 3 * i + 1) = s.M.read (src + 4 * i + 1) ∧
        t.M.read (dst + 3 * i + 2) = s.M.read (src + 4 * i))

/-- R142: the five checks of `PALPACK`; the first that fails is the one reported, and nothing else changes. -/
def Obligations.PalpackChecks : Prop :=
  ∀ (s : State) (rd rs1 rs2 rs3 rs4 : Reg) (dst src srclen count : Nat) (w : Word),
    dst = (readX s rs1).toNat → src = (readX s rs2).toNat → srclen = (readX s rs3).toNat → count = (readX s rs4).toNat →
    w = encode (.palpack rd rs1 rs2 rs3 rs4) →
    (srclen % 4 ≠ 0 → exec (.palpack rd rs1 rs2 rs3 rs4) s = .next (s.erring 3 w)) ∧
    (srclen % 4 = 0 → 256 < count → exec (.palpack rd rs1 rs2 rs3 rs4) s = .next (s.erring 4 w)) ∧
    (srclen % 4 = 0 → count ≤ 256 → srclen < 4 * count → exec (.palpack rd rs1 rs2 rs3 rs4) s = .next (s.erring 5 w)) ∧
    (srclen % 4 = 0 → count ≤ 256 → 4 * count ≤ srclen →
      (s.M.size.val < src + srclen ∨ s.M.size.val < dst + 3 * count) →
      exec (.palpack rd rs1 rs2 rs3 rs4) s = .next (s.erring 2 w))

/-! ### Stored-block framer (43_zframe.md) -/

/-- `ZFRAME` completes whenever its checks pass, returns `ZLen(W, H)` and writes only the stream, `A` and `B`. The stream has
the layout of R151: header `78 01`; per row the final-flag, `LEN = (W+1) mod 65536` and its complement, the filter byte 0;
then `B` and `A` big-endian. The sums are the Adler-32 of the filter and pixel bytes as they stand in the stream. Each pixel
byte is the source byte, reduced mod `BANK` in hi-attribute mode, as it stands when all stream bytes before it have been
written, so overlapping regions give the bytes of R69 too; when they are disjoint, that is the byte from before (R155 to
R159, R161). -/
def Obligations.ZframeWritesStream : Prop :=
  ∀ (s : State) (rd rs1 rs2 rs3 rs4 : Reg) (dst src W H : Nat),
    dst = (readX s rs1).toNat → src = (readX s rs2).toNat → W = (readX s rs3).toNat → H = (readX s rs4).toNat →
    W ≤ 65535 → ¬ (s.HIATTR = true ∧ s.BANK = 0) →
    dst + (6 + H * (W + 6)) ≤ s.M.size.val → src + W * H ≤ s.M.size.val →
    ∃ t, exec (.zframe rd rs1 rs2 rs3 rs4) s = .next t ∧ (readX t rd).toNat = 6 + H * (W + 6) ∧
      t = { s with x := t.x, M := t.M, A := t.A, B := t.B } ∧ s.otherX t rd ∧
      s.M.sameOutside t.M dst (6 + H * (W + 6)) ∧
      t.M.read dst = 0x78 ∧ t.M.read (dst + 1) = 0x01 ∧
      (∀ y, y < H →
        (t.M.read (dst + 2 + y * (W + 6))).toNat = (if y + 1 = H then 1 else 0) ∧
        (t.M.read (dst + 2 + y * (W + 6) + 1)).toNat = (W + 1) % 65536 % 256 ∧
        (t.M.read (dst + 2 + y * (W + 6) + 2)).toNat = (W + 1) % 65536 / 256 ∧
        (t.M.read (dst + 2 + y * (W + 6) + 3)).toNat = (65535 - (W + 1) % 65536) % 256 ∧
        (t.M.read (dst + 2 + y * (W + 6) + 4)).toNat = (65535 - (W + 1) % 65536) / 256 ∧
        t.M.read (dst + 2 + y * (W + 6) + 5) = 0) ∧
      (t.A, t.B) = adlerBytes (1, 0)
        ((List.range H).flatMap (fun y => t.M.readBytes (dst + 2 + y * (W + 6) + 5) (W + 1))) ∧
      (t.M.read (dst + 2 + H * (W + 6))).toNat = t.B.toNat / 256 ∧
      (t.M.read (dst + 2 + H * (W + 6) + 1)).toNat = t.B.toNat % 256 ∧
      (t.M.read (dst + 2 + H * (W + 6) + 2)).toNat = t.A.toNat / 256 ∧
      (t.M.read (dst + 2 + H * (W + 6) + 3)).toNat = t.A.toNat % 256 ∧
      (∀ y k, y < H → k < W → (t.M.read (dst + 2 + y * (W + 6) + 6 + k)).toNat =
        if s.HIATTR = true then
          (s.M.seen t.M dst (dst + 2 + y * (W + 6) + 6 + k) (src + y * W + k)).toNat % s.BANK.toNat
        else (s.M.seen t.M dst (dst + 2 + y * (W + 6) + 6 + k) (src + y * W + k)).toNat) ∧
      (disjoint src (W * H) dst (6 + H * (W + 6)) → ∀ y k, y < H → k < W →
        (t.M.read (dst + 2 + y * (W + 6) + 6 + k)).toNat =
          if s.HIATTR = true then (s.M.read (src + y * W + k)).toNat % s.BANK.toNat
          else (s.M.read (src + y * W + k)).toNat)

/-- R152 to R154: the three checks of `ZFRAME` in their order; a failing `ZFRAME` writes nothing but the error record. -/
def Obligations.ZframeChecks : Prop :=
  ∀ (s : State) (rd rs1 rs2 rs3 rs4 : Reg) (dst src W H : Nat) (w : Word),
    dst = (readX s rs1).toNat → src = (readX s rs2).toNat → W = (readX s rs3).toNat → H = (readX s rs4).toNat →
    w = encode (.zframe rd rs1 rs2 rs3 rs4) →
    (65535 < W → exec (.zframe rd rs1 rs2 rs3 rs4) s = .next (s.erring 6 w)) ∧
    (W ≤ 65535 → s.HIATTR = true → s.BANK = 0 → exec (.zframe rd rs1 rs2 rs3 rs4) s = .next (s.erring 7 w)) ∧
    (W ≤ 65535 → ¬ (s.HIATTR = true ∧ s.BANK = 0) →
      (s.M.size.val < dst + (6 + H * (W + 6)) ∨ s.M.size.val < src + W * H) →
      exec (.zframe rd rs1 rs2 rs3 rs4) s = .next (s.erring 2 w))

/-- The round trip of TPQ §8 (R160(d), R162): for `W <= 65534`, `H >= 1`, hi-attribute mode off and disjoint regions, a decoder
of stored blocks run over the stream after its header yields exactly `H` scanlines, each a filter byte 0 and the `W` source
pixels, and leaves the four trailer bytes. -/
def Obligations.ZframeStreamInflates : Prop :=
  ∀ (s : State) (rd rs1 rs2 rs3 rs4 : Reg) (dst src W H : Nat),
    dst = (readX s rs1).toNat → src = (readX s rs2).toNat → W = (readX s rs3).toNat → H = (readX s rs4).toNat →
    W ≤ 65534 → 1 ≤ H → s.HIATTR = false → dst + (6 + H * (W + 6)) ≤ s.M.size.val → src + W * H ≤ s.M.size.val →
    disjoint src (W * H) dst (6 + H * (W + 6)) →
    ∃ t, exec (.zframe rd rs1 rs2 rs3 rs4) s = .next t ∧
      inflateStored H (t.M.readBytes (dst + 2) (H * (W + 6) + 4)) =
        some ((List.range H).map (fun y => (0 : Byte) :: s.M.readBytes (src + y * W) W),
          t.M.readBytes (dst + 2 + H * (W + 6)) 4)

/-! ### Chunk assembler (44_chunk.md) -/

/-- `CHUNK` completes whenever its regions lie in `M`, returns `dst + 12 + n` and writes only the chunk (and the table if not yet
built). Length and type tag are laid down big-endian, and the stored CRC is the CRC-32 of the stored type and payload bytes.
Each payload byte is the source byte as it stands when length, type and the payload bytes before it have been written, so
overlapping regions give the bytes of R69 and R174(c) too; when they are disjoint the payload is verbatim (R170 to R172).
Otherwise it raises `Bounds`. -/
def Obligations.ChunkAssembles : Prop :=
  ∀ (s : State) (rd rs1 rs2 rs3 rs4 : Reg) (dst src n : Nat), s.Inv →
    dst = (readX s rs1).toNat → src = (readX s rs3).toNat → n = (readX s rs4).toNat →
    (dst + (12 + n) ≤ s.M.size.val → src + n ≤ s.M.size.val →
      ∃ t, exec (.chunk rd rs1 rs2 rs3 rs4) s = .next t ∧ (readX t rd).toNat = dst + 12 + n ∧
        t = { s with x := t.x, M := t.M, T := t.T, TV := true } ∧ s.otherX t rd ∧
        s.M.sameOutside t.M dst (12 + n) ∧
        (∀ k, k < 4 → (t.M.read (dst + k)).toNat = n / 256 ^ (3 - k) % 256) ∧
        (∀ k, k < 4 → (t.M.read (dst + 4 + k)).toNat = (readX s rs2).toNat / 256 ^ (3 - k) % 256) ∧
        (∀ k, k < 4 → (t.M.read (dst + 8 + n + k)).toNat =
          (crcSerial (t.M.readBytes (dst + 4) (4 + n))).toNat / 256 ^ (3 - k) % 256) ∧
        (∀ k, k < n → t.M.read (dst + 8 + k) = s.M.seen t.M dst (dst + 8 + k) (src + k)) ∧
        (disjoint src n dst (12 + n) → ∀ k, k < n → t.M.read (dst + 8 + k) = s.M.read (src + k))) ∧
    (s.M.size.val < dst + (12 + n) ∨ s.M.size.val < src + n →
      exec (.chunk rd rs1 rs2 rs3 rs4) s = .next (s.erring 2 (encode (.chunk rd rs1 rs2 rs3 rs4))))

/-! ### Host port (20_memory.md R62) -/

/-- `HostWriteMem`, `HostReadMem`, `HostReadReg`, `HostReadCsr` (R62): a write changes one byte; a read returns the value and
changes no state of the block (its answer goes to the model's own list, log 8); an access outside `M` is no move (log 9). -/
def Obligations.HostPortActions : Prop :=
  ∀ (s : State),
    (∀ (a : Nat) (b : Byte), a < s.M.size.val →
      (∃ t, perform (.writeMem a b) s = .next t ∧ s.onlyM t a 1 ∧ t.M.read a = b) ∧
      perform (.readMem a) s = .next { s with answers := s.answers ++ [.mem a (s.M.read a)] }) ∧
    (∀ (a : Nat) (b : Byte), s.M.size.val ≤ a →
      perform (.writeMem a b) s = .fault (.hostOutsideM a) ∧ perform (.readMem a) s = .fault (.hostOutsideM a)) ∧
    (∀ i, perform (.readReg i) s = .next { s with answers := s.answers ++ [.reg i (readX s i)] }) ∧
    (∀ k v, exec (.csrr 0 (csrNumber k)) s = .next v →
      perform (.readCsr k) s = .next { s with answers := s.answers ++ [.csr k (readX v 0)] })

/-! ### Pseudo-instructions (30_encoding.md R95, R96; 45_encode_sequence.md) -/

/-- R95: after `LI32 rd, imm32`, `x[rd] = imm32`, and nothing else has changed. -/
def Obligations.Li32LoadsConstant : Prop :=
  ∀ (s : State) (rd : Reg) (v : Word) (rest : List HostAction), s.ERR = 0 → s.pending = issueAll (li32 rd v) ++ rest →
    ∃ t, Sys2Proof.core.run 2 s = .next t ∧ readX t rd = v ∧ t = { s with x := t.x, pending := rest } ∧ s.otherX t rd

/-- R180, R181: `ENCODE` expands to 64 well-formed commands, and is refused exactly when `OUT + 8` or `SCR + 784` does not fit
32 bits. -/
def Obligations.EncodeExpands : Prop :=
  ∀ e : EncodeArgs,
    (encodeSeq e = none ↔ 2 ^ 32 ≤ e.OUT.toNat + 8 ∨ 2 ^ 32 ≤ e.SCR.toNat + 784) ∧
    ∀ l, encodeSeq e = some l → l.length = 64 ∧ ∀ i ∈ l, i.wellFormed = true

/-- `ENCODE` with the preconditions of R180 met raises no error and leaves the end state of R185: the registers, `TV = 1`, the
Adler sums of the pixel rows, the configuration and the error record unchanged; in the scratch region the IHDR payload, the
packed palette and the zlib stream; and nothing written outside the output and scratch regions, so not the palette and not
the pixels. The file itself is EncodeWritesPng. -/
def Obligations.EncodeEndState : Prop :=
  ∀ (s : State) (e : EncodeArgs) (l : List Instr) (rest : List HostAction), s.Inv → EncodeReady s e →
    encodeSeq e = some l → s.pending = issueAll l ++ rest →
    ∃ t, Sys2Proof.core.run 64 s = .next t ∧ t.ERR = 0 ∧ t.ERRINFO = s.ERRINFO ∧
      readX t 1 = e.SCR + 16 ∧ readX t 2 = e.PAL ∧ readX t 3 = e.PALLEN ∧ readX t 4 = e.COUNT ∧
      readX t 5 = e.SCR + 784 ∧ readX t 6 = e.PIX ∧ readX t 7 = e.W ∧ readX t 8 = e.H ∧
      (readX t 9).toNat = 3 * e.COUNT.toNat ∧ (readX t 10).toNat = zLen e.W.toNat e.H.toNat ∧
      (readX t 11).toNat = e.OUT.toNat + encodeTotal e ∧
      readX t 12 = 0x49454E44 ∧ readX t 13 = e.SCR ∧ readX t 14 = 0 ∧
      readX t 0 = readX s 0 ∧ readX t 15 = readX s 15 ∧
      t.TV = true ∧ t.HIATTR = s.HIATTR ∧ t.BANK = s.BANK ∧ t.pending = rest ∧ t.answers = s.answers ∧
      (t.A, t.B) = adlerBytes (1, 0)
        ((List.range e.H.toNat).flatMap (scanline s.HIATTR s.BANK s.M e.PIX.toNat e.W.toNat)) ∧
      t.M.size = s.M.size ∧
      t.M.readBytes e.SCR.toNat 13 = be32 e.W ++ be32 e.H ++ [0x08, 0x03, 0x00, 0x00, 0x00] ∧
      t.M.readBytes (e.SCR.toNat + 16) (3 * e.COUNT.toNat) = packedPalette s.M e.PAL.toNat e.COUNT.toNat ∧
      t.M.readBytes (e.SCR.toNat + 784) (zLen e.W.toNat e.H.toNat) =
        zlibStream s.HIATTR s.BANK s.M e.PIX.toNat e.W.toNat e.H.toNat ∧
      ∀ a, (a < e.OUT.toNat ∨ e.OUT.toNat + encodeTotal e ≤ a) → (a < e.SCR.toNat ∨ e.SCR.toNat + encodeScratch e ≤ a) →
        t.M.read a = s.M.read a

/-- `ENCODE` with the preconditions of R180 met writes the PNG file at `OUT`: `Total` bytes that are the signature and the
four chunks of R186, each with the CRC-32 of its own type and payload (R183, R185, R186). -/
def Obligations.EncodeWritesPng : Prop :=
  ∀ (s : State) (e : EncodeArgs) (l : List Instr) (rest : List HostAction), s.Inv → EncodeReady s e →
    encodeSeq e = some l → s.pending = issueAll l ++ rest →
    ∃ t, Sys2Proof.core.run 64 s = .next t ∧
      t.M.readBytes e.OUT.toNat (69 + 3 * e.COUNT.toNat + (6 + e.H.toNat * (e.W.toNat + 6))) = pngFile s e
end

