-- ==== Sys2Proof/Laws/Memory.lean ====
section
/-! SUPPORT. The byte memory: a read after a write, the bytes a field write stores, and that every operation keeps the
canonical form. -/

namespace Sys2Proof.Machine

/-! ### Cell lists -/

theorem lookupCell_eq_none {cs : List Host.Cell} {a : Nat} (h : ∀ c ∈ cs, c.1 ≠ a) : lookupCell cs a = none := by
  induction cs with
  | nil => rfl
  | cons c t ih =>
    obtain ⟨b, v⟩ := c
    have hb : a ≠ b := fun e => h (b, v) (by simp) e.symm
    simp only [lookupCell, if_neg hb]
    exact ih (fun c hc => h c (by simp [hc]))

theorem lookupCell_erase_same (cs : List Host.Cell) (a : Nat) : lookupCell (eraseCell cs a) a = none := by
  apply lookupCell_eq_none
  simp [eraseCell]

theorem lookupCell_erase_other (cs : List Host.Cell) (a b : Nat) (h : b ≠ a) :
    lookupCell (eraseCell cs a) b = lookupCell cs b := by
  induction cs with
  | nil => rfl
  | cons c t ih =>
    obtain ⟨k, v⟩ := c
    by_cases hk : k = a
    · have : b ≠ k := fun e => h (e.trans hk)
      simpa [eraseCell, lookupCell, hk, this, h] using ih
    · by_cases hb : b = k
      · simp [eraseCell, lookupCell, hk, hb]
      · simpa [eraseCell, lookupCell, hk, hb] using ih

theorem lookupCell_insert_same (cs : List Host.Cell) (a : Nat) (v : Byte) (h : ∀ c ∈ cs, c.1 ≠ a) :
    lookupCell (insertCell cs a v) a = some v := by
  induction cs with
  | nil => simp [insertCell, lookupCell]
  | cons c t ih =>
    obtain ⟨k, w⟩ := c
    have hk : a ≠ k := fun e => h (k, w) (by simp) e.symm
    simp only [insertCell]
    split
    · simp [lookupCell]
    · simp only [lookupCell, if_neg hk]
      exact ih (fun c hc => h c (by simp [hc]))

theorem lookupCell_insert_other (cs : List Host.Cell) (a b : Nat) (v : Byte) (h : b ≠ a) :
    lookupCell (insertCell cs a v) b = lookupCell cs b := by
  induction cs with
  | nil => simp [insertCell, lookupCell, h]
  | cons c t ih =>
    obtain ⟨k, w⟩ := c
    simp only [insertCell]
    split
    · simp [lookupCell, h]
    · simp only [lookupCell]
      split
      · rfl
      · exact ih

theorem eraseCell_ne (cs : List Host.Cell) (a : Nat) : ∀ c ∈ eraseCell cs a, c.1 ≠ a := by simp [eraseCell]

theorem mem_insertCell {cs : List Host.Cell} {a : Nat} {v : Byte} {c : Host.Cell} (h : c ∈ insertCell cs a v) :
    c = (a, v) ∨ c ∈ cs := by
  induction cs with
  | nil => simpa [insertCell] using h
  | cons d t ih =>
    obtain ⟨k, w⟩ := d
    simp only [insertCell] at h
    split at h
    · simpa using h
    · rcases List.mem_cons.mp h with h | h
      · exact .inr (by simp [h])
      · exact (ih h).imp_right (fun h => by simp [h])

theorem pairwise_insertCell {cs : List Host.Cell} {a : Nat} (v : Byte)
    (hs : cs.Pairwise (fun c d => c.1 < d.1)) (hne : ∀ c ∈ cs, c.1 ≠ a) :
    (insertCell cs a v).Pairwise (fun c d => c.1 < d.1) := by
  induction cs with
  | nil => simp [insertCell]
  | cons d t ih =>
    obtain ⟨k, w⟩ := d
    rw [List.pairwise_cons] at hs
    have hk : k ≠ a := hne (k, w) (by simp)
    simp only [insertCell]
    split
    case isTrue hlt =>
      refine List.pairwise_cons.mpr ⟨fun c hc => ?_, List.pairwise_cons.mpr hs⟩
      rcases List.mem_cons.mp hc with rfl | hc
      · exact hlt
      · exact Nat.lt_trans hlt (hs.1 c hc)
    case isFalse hge =>
      refine List.pairwise_cons.mpr ⟨fun c hc => ?_, ih hs.2 (fun c hc => hne c (by simp [hc]))⟩
      rcases mem_insertCell hc with rfl | hc
      · show k < a
        omega
      · exact hs.1 c hc

/-! ### Reads and writes -/

@[simp] theorem Memory.write_size (m : Memory) (a : Nat) (v : Byte) : (m.write a v).size = m.size := rfl
@[simp] theorem Memory.write_past (m : Memory) (a : Nat) (v : Byte) : (m.write a v).past = m.past := rfl
@[simp] theorem Memory.write_fill (m : Memory) (a : Nat) (v : Byte) : (m.write a v).fill = m.fill := rfl
@[simp] theorem Memory.write_unlisted (m : Memory) (a b : Nat) (v : Byte) : (m.write a v).unlisted b = m.unlisted b := rfl

/-- A read after a write: the value written there, every other byte as before (R56, R61). -/
theorem Memory.read_write (m : Memory) (a b : Nat) (v : Byte) :
    (m.write a v).read b = if b = a then v else m.read b := by
  unfold Memory.read
  rw [Memory.write_unlisted]
  by_cases hb : b = a
  · subst hb
    by_cases hv : v = m.unlisted b
    · simp [Memory.write, ← hv, lookupCell_erase_same]
    · simp [Memory.write, hv, lookupCell_insert_same _ _ _ (eraseCell_ne _ _)]
  · by_cases hv : v = m.unlisted a
    · simp [Memory.write, ← hv, hb, lookupCell_erase_other]
    · simp [Memory.write, hv, hb, lookupCell_erase_other, lookupCell_insert_other]

@[simp] theorem Memory.read_write_same (m : Memory) (a : Nat) (v : Byte) : (m.write a v).read a = v := by
  simp [Memory.read_write]

theorem Memory.read_write_other (m : Memory) {a b : Nat} (v : Byte) (h : b ≠ a) : (m.write a v).read b = m.read b := by
  simp [Memory.read_write, h]

/-- A write inside `M` keeps the canonical form. -/
theorem Memory.wf_write {m : Memory} (h : m.wf) {a : Nat} (ha : a < m.size.val) (v : Byte) : (m.write a v).wf := by
  obtain ⟨hs, hc⟩ := h
  have he : (eraseCell m.cells a).Pairwise (fun c d => c.1 < d.1) := hs.filter _
  have hm : ∀ c ∈ eraseCell m.cells a, c ∈ m.cells := fun c hc => List.mem_of_mem_filter hc
  by_cases hv : v = m.unlisted a
  · refine ⟨?_, ?_⟩
    · simpa [Memory.write, ← hv] using he
    · intro c h
      have h' : c ∈ eraseCell m.cells a := by simpa [Memory.write, ← hv] using h
      exact hc c (hm c h')
  · refine ⟨?_, ?_⟩
    · simpa [Memory.write, hv] using pairwise_insertCell v he (eraseCell_ne _ _)
    · intro c h
      have h' : c ∈ insertCell (eraseCell m.cells a) a v := by simpa [Memory.write, hv] using h
      rcases mem_insertCell h' with rfl | h''
      · exact ⟨ha, hv⟩
      · exact hc c (hm c h'')

/-! ### Fields of several bytes -/

@[simp] theorem Memory.writeBytes_size (m : Memory) (a : Nat) (bs : List Byte) : (m.writeBytes a bs).size = m.size := by
  induction bs generalizing m a with
  | nil => rfl
  | cons b bs ih => simp [Memory.writeBytes, ih]

@[simp] theorem Memory.writeBytes_past (m : Memory) (a : Nat) (bs : List Byte) : (m.writeBytes a bs).past = m.past := by
  induction bs generalizing m a with
  | nil => rfl
  | cons b bs ih => simp [Memory.writeBytes, ih]

@[simp] theorem Memory.writeBytes_fill (m : Memory) (a : Nat) (bs : List Byte) : (m.writeBytes a bs).fill = m.fill := by
  induction bs generalizing m a with
  | nil => rfl
  | cons b bs ih => simp [Memory.writeBytes, ih]

/-- Outside the field nothing changes. -/
theorem Memory.read_writeBytes_other (m : Memory) (a : Nat) (bs : List Byte) {b : Nat}
    (h : b < a ∨ a + bs.length ≤ b) : (m.writeBytes a bs).read b = m.read b := by
  induction bs generalizing m a with
  | nil => rfl
  | cons v bs ih =>
    simp only [List.length_cons] at h
    rw [Memory.writeBytes, ih _ _ (by omega), Memory.read_write_other _ _ (by omega)]

/-- Inside the field each byte is the one the field gives. -/
theorem Memory.read_writeBytes_at (m : Memory) (a : Nat) (bs : List Byte) (k : Nat) (h : k < bs.length) :
    (m.writeBytes a bs).read (a + k) = bs[k] := by
  induction bs generalizing m a k with
  | nil => simp at h
  | cons v bs ih =>
    cases k with
    | zero => rw [Memory.writeBytes, Memory.read_writeBytes_other _ _ _ (by omega)]; simp
    | succ k =>
      have := ih (m.write a v) (a + 1) k (by simpa using h)
      rw [Memory.writeBytes, show a + (k + 1) = a + 1 + k by omega, this]
      simp

/-- A field write inside `M` keeps the canonical form. -/
theorem Memory.wf_writeBytes {m : Memory} (h : m.wf) {a : Nat} (bs : List Byte) (ha : a + bs.length ≤ m.size.val) :
    (m.writeBytes a bs).wf := by
  induction bs generalizing m a with
  | nil => exact h
  | cons v bs ih =>
    simp only [List.length_cons] at ha
    exact ih (Memory.wf_write h (by omega) v) (by simp; omega)

/-! ### Regions -/

@[simp] theorem Memory.length_readBytes (m : Memory) (a n : Nat) : (m.readBytes a n).length = n := by
  induction n generalizing a with
  | zero => rfl
  | succ n ih => simp [Memory.readBytes, ih]

/-- `MemRead(a, n)` lists `M[a + k]` for `k = 0 .. n-1` (R12). -/
theorem Memory.readBytes_eq_map (m : Memory) (a n : Nat) :
    m.readBytes a n = (List.range n).map (fun k => m.read (a + k)) := by
  induction n generalizing a with
  | zero => rfl
  | succ n ih =>
    rw [Memory.readBytes, ih, List.range_succ_eq_map]
    simp [Function.comp_def, Nat.add_assoc, Nat.add_comm 1]

theorem Memory.getElem_readBytes (m : Memory) (a n k : Nat) (h : k < (m.readBytes a n).length) :
    (m.readBytes a n)[k] = m.read (a + k) := by
  simp [Memory.readBytes_eq_map]

theorem Memory.readBytes_add (m : Memory) (a n k : Nat) :
    m.readBytes a (n + k) = m.readBytes a n ++ m.readBytes (a + n) k := by
  induction n generalizing a with
  | zero => simp [Memory.readBytes]
  | succ n ih =>
    rw [show n + 1 + k = (n + k) + 1 by omega, Memory.readBytes, Memory.readBytes, ih]
    simp [Nat.add_assoc, Nat.add_comm 1]

/-- A field read back is the field. -/
theorem Memory.readBytes_writeBytes (m : Memory) (a : Nat) (bs : List Byte) :
    (m.writeBytes a bs).readBytes a bs.length = bs := by
  refine List.ext_getElem (by simp) (fun k h1 h2 => ?_)
  rw [Memory.getElem_readBytes, Memory.read_writeBytes_at _ _ _ _ h2]

/-- Two memories that read alike on a region give the same bytes there. -/
theorem Memory.readBytes_congr {m m' : Memory} {a n : Nat} (h : ∀ k, k < n → m.read (a + k) = m'.read (a + k)) :
    m.readBytes a n = m'.readBytes a n := by
  rw [Memory.readBytes_eq_map, Memory.readBytes_eq_map]
  exact List.map_congr_left (fun k hk => h k (List.mem_range.mp hk))

/-! ### Reset -/

@[simp] theorem Memory.afterReset_size (m : Memory) : m.afterReset.size = m.size := rfl
@[simp] theorem Memory.afterReset_past (m : Memory) : m.afterReset.past = m.cells :: m.past := rfl
@[simp] theorem Memory.afterReset_fill (m : Memory) : m.afterReset.fill = m.fill := rfl

/-- After a `Reset` every byte is the free value of all that the memory was (R232). -/
theorem Memory.read_afterReset (m : Memory) (a : Nat) : m.afterReset.read a = Config.ramByte (m.cells :: m.past) m.fill a :=
  rfl

theorem Memory.wf_afterReset (m : Memory) : m.afterReset.wf := by simp [Memory.wf, Memory.afterReset]

theorem Memory.wf_powerOn (size : Fin (2 ^ 32)) : (Memory.powerOn size).wf := by simp [Memory.wf, Memory.powerOn]

/-! ### The canonical form is canonical -/

theorem lookupCell_eq_some {cs : List Host.Cell} {a : Nat} {v : Byte} (hs : cs.Pairwise (fun c d => c.1 < d.1)) :
    lookupCell cs a = some v ↔ (a, v) ∈ cs := by
  induction cs with
  | nil => simp [lookupCell]
  | cons d t ih =>
    obtain ⟨k, w⟩ := d
    rw [List.pairwise_cons] at hs
    by_cases hk : a = k
    · subst hk
      have : (a, v) ∉ t := fun h => absurd (hs.1 _ h) (by simp)
      simp [lookupCell, this, eq_comm]
    · simp [lookupCell, hk, ih hs.2]

/-- Two memories in canonical form with the same size, free value and fill that read alike everywhere are the same data. -/
theorem Memory.eq_of_read_eq {m m' : Memory} (h : m.wf) (h' : m'.wf) (hsize : m.size = m'.size)
    (hpast : m.past = m'.past) (hfill : m.fill = m'.fill) (hread : ∀ a, m.read a = m'.read a) : m = m' := by
  have hu : ∀ a, m.unlisted a = m'.unlisted a := fun a => by simp [Memory.unlisted, hpast, hfill]
  have hl : ∀ a, lookupCell m.cells a = lookupCell m'.cells a := by
    intro a
    have hr := hread a
    unfold Memory.read at hr
    cases e : lookupCell m.cells a with
    | none =>
      cases e' : lookupCell m'.cells a with
      | none => rfl
      | some v' =>
        have := (h'.2 _ ((lookupCell_eq_some h'.1).mp e')).2
        simp [e, e', hu] at hr
        exact absurd hr.symm this
    | some v =>
      have := (h.2 _ ((lookupCell_eq_some h.1).mp e)).2
      cases e' : lookupCell m'.cells a with
      | none => simp [e, e', ← hu] at hr; exact absurd hr this
      | some v' => simpa [e, e'] using hr
  have hmem : ∀ c, c ∈ m.cells ↔ c ∈ m'.cells := by
    rintro ⟨a, v⟩
    rw [← lookupCell_eq_some h.1, ← lookupCell_eq_some h'.1, hl]
  have hirr : ∀ {cs : List Host.Cell}, cs.Pairwise (fun c d => c.1 < d.1) → cs.Nodup :=
    fun hs => hs.imp (fun hlt e => by simp [e] at hlt)
  have hperm : m.cells.Perm m'.cells := (List.perm_ext_iff_of_nodup (hirr h.1) (hirr h'.1)).mpr hmem
  have hc : m.cells = m'.cells :=
    hperm.eq_of_pairwise (fun a b _ _ hab hba => absurd hab (Nat.lt_asymm hba)) h.1 h'.1
  cases m; cases m'; simp_all

end Sys2Proof.Machine
end

