-- ==== Sys2Proof/Laws/Region.lean ====
section
/-! SUPPORT. Loops, and memories that differ inside one region only: what every multi-byte writer of the machine does. -/

namespace Sys2Proof.Machine

/-! ### Loops -/

/-- What holds before a loop and is kept by each pass holds after it (00_scope.md R13). -/
theorem loop_induct {σ : Type} (P : Nat → σ → Prop) {n : Nat} {body : Nat → σ → σ} {s : σ} (h0 : P 0 s)
    (hstep : ∀ i t, i < n → P i t → P (i + 1) (body i t)) : P n (loop n body s) := by
  induction n with
  | zero => exact h0
  | succ n ih => exact hstep n _ (by omega) (ih (fun i t hi => hstep i t (by omega)))

/-- A loop that ignores its counter iterates its body. -/
theorem loop_const {σ : Type} (f : σ → σ) (n : Nat) (s : σ) : loop n (fun _ c => f c) s = f^[n] s := by
  induction n with
  | zero => rfl
  | succ n ih => rw [loop, ih, Function.iterate_succ_apply']

/-! ### Regions -/

/-- `m'` is `m` with nothing changed but bytes of the region `(a, n)`, and is in canonical form if `m` is and the region lies
in `M`. -/
structure Memory.Within (m m' : Memory) (a n : Nat) : Prop where
  size : m'.size = m.size
  past : m'.past = m.past
  fill : m'.fill = m.fill
  other : ∀ b, b < a ∨ a + n ≤ b → m'.read b = m.read b
  wf : m.wf → a + n ≤ m.size.val → m'.wf

theorem Memory.Within.refl (m : Memory) (a n : Nat) : m.Within m a n := ⟨rfl, rfl, rfl, fun _ _ => rfl, fun h _ => h⟩

theorem Memory.Within.trans {m m' m'' : Memory} {a n : Nat} (h : m.Within m' a n) (h' : m'.Within m'' a n) :
    m.Within m'' a n :=
  ⟨h'.size.trans h.size, h'.past.trans h.past, h'.fill.trans h.fill,
    fun b hb => (h'.other b hb).trans (h.other b hb), fun hw hn => h'.wf (h.wf hw hn) (h.size ▸ hn)⟩

/-- A change in a smaller region is a change in a larger one. -/
theorem Memory.Within.mono {m m' : Memory} {a n b k : Nat} (h : m.Within m' b k) (h1 : a ≤ b) (h2 : b + k ≤ a + n) :
    m.Within m' a n :=
  ⟨h.size, h.past, h.fill, fun c hc => h.other c (by omega), fun hw hn => h.wf hw (by omega)⟩

theorem Memory.within_write (m : Memory) (a : Nat) (v : Byte) : m.Within (m.write a v) a 1 :=
  ⟨rfl, rfl, rfl, fun _ hb => m.read_write_other v (by omega), fun hw hn => Memory.wf_write hw (by omega) v⟩

theorem Memory.within_writeBytes (m : Memory) (a : Nat) (bs : List Byte) : m.Within (m.writeBytes a bs) a bs.length := by
  induction bs generalizing m a with
  | nil => exact .refl m a 0
  | cons b bs ih =>
    exact ((m.within_write a b).mono (Nat.le_refl _) (by simp)).trans
      ((ih (m.write a b) (a + 1)).mono (by omega) (by simp; omega))

/-- A loop each pass of which stays in a region stays in it. -/
theorem Memory.within_loop {m : Memory} {body : Nat → Memory → Memory} {n a k : Nat}
    (h : ∀ i (t : Memory), i < n → t.Within (body i t) a k) : m.Within (loop n body m) a k :=
  loop_induct (fun _ t => m.Within t a k) (.refl m a k) (fun i t hi ht => ht.trans (h i t hi))

/-- Bytes outside the region are read as before. -/
theorem Memory.Within.readBytes {m m' : Memory} {a n : Nat} (h : m.Within m' a n) {b k : Nat} (hb : b + k ≤ a ∨ a + n ≤ b) :
    m'.readBytes b k = m.readBytes b k :=
  Memory.readBytes_congr (fun i hi => h.other _ (by omega))

/-! ### What a command sees of its own writes (20_memory.md R69) -/

/-- Out of reach of the writes the byte from before is seen. -/
theorem Memory.seen_before {m m' : Memory} {lo hi a : Nat} (h : a < lo ∨ hi ≤ a) : m.seen m' lo hi a = m.read a :=
  if_neg (by omega)

/-- Only the bytes written so far matter. -/
theorem Memory.seen_congr {m t t' : Memory} {lo hi : Nat} (h : ∀ b, lo ≤ b → b < hi → t'.read b = t.read b) (a : Nat) :
    m.seen t' lo hi a = m.seen t lo hi a := by
  unfold Memory.seen
  split
  · rename_i hb; exact h a hb.1 hb.2
  · rfl

/-- A memory between two writes reads as what the command sees. -/
theorem Memory.Within.read_eq_seen {m t : Memory} {lo n : Nat} (h : m.Within t lo n) (a : Nat) :
    t.read a = m.seen t lo (lo + n) a := by
  unfold Memory.seen
  split
  · rfl
  · exact h.other a (by omega)

/-- Writes in two parts: what the second part sees of a memory that the first left is what the whole sees. -/
theorem Memory.Within.seen_seen {m t t' : Memory} {lo mid hi n : Nat} (h : m.Within t lo n) (hn : lo + n ≤ mid)
    (hmid : mid ≤ hi) (h' : ∀ b, lo ≤ b → b < mid → t'.read b = t.read b) (a : Nat) :
    t.seen t' mid hi a = m.seen t' lo hi a := by
  unfold Memory.seen
  split
  · rw [if_pos (by omega)]
  · split
    · exact (h' a (by omega) (by omega)).symm
    · exact h.other a (by omega)

end Sys2Proof.Machine
end

