-- ==== Sys2Proof/Laws/Checksum.lean ====
section
/-! SUPPORT. The checksum engines: the table engine is the bit-serial one, the shift is linear, and the Adler sums in closed
form. -/

namespace Sys2Proof.Machine

/-! ### The CRC -/

theorem crcShift_eq_serial (c : Word) : crcShift c = crcSerialBit c := by
  unfold crcShift crcSerialBit crcPoly
  split <;> simp [BitVec.xor_comm]

/-- A table entry is eight bit-serial steps from its index (40_checksum.md R110). -/
theorem tableEntry_eq_serial (n : Byte) : tableEntry n = crcSerialBit^[8] (n.setWidth 32) := by
  rw [tableEntry, loop_const, show crcShift = crcSerialBit from funext crcShift_eq_serial]

/-- The table at an index (40_checksum.md R110, R111). -/
theorem tableAt_crcTable (n : Byte) : tableAt crcTable n = tableEntry n := by
  simp [tableAt, crcTable]

theorem xor_xor_xor_comm (a b p q : Word) : a ^^^ b ^^^ (p ^^^ q) = a ^^^ p ^^^ (b ^^^ q) := by
  rw [BitVec.xor_assoc, ← BitVec.xor_assoc b, BitVec.xor_comm b, BitVec.xor_assoc p, ← BitVec.xor_assoc]

/-- One bit-serial step is linear over xor. -/
theorem crcSerialBit_xor (c d : Word) : crcSerialBit (c ^^^ d) = crcSerialBit c ^^^ crcSerialBit d := by
  have h : ∀ p q : Bool, (if (p ^^ q) = true then (0xEDB88320 : Word) else 0) =
      (if p = true then 0xEDB88320 else 0) ^^^ (if q = true then 0xEDB88320 else 0) := by decide
  rw [crcSerialBit, crcSerialBit, crcSerialBit, BitVec.ushiftRight_xor_distrib, BitVec.getLsbD_xor, h, xor_xor_xor_comm]

theorem crcSerialBit_iterate_xor (n : Nat) (c d : Word) :
    crcSerialBit^[n] (c ^^^ d) = crcSerialBit^[n] c ^^^ crcSerialBit^[n] d := by
  induction n generalizing c d with
  | zero => rfl
  | succ n ih => simp only [Function.iterate_succ_apply, crcSerialBit_xor, ih]

/-- Steps from a word whose low bits are zero only shift. -/
theorem crcSerialBit_iterate_shift (n : Nat) (c : Word) (h : ∀ k, k < n → c.getLsbD k = false) :
    crcSerialBit^[n] c = c >>> n := by
  induction n generalizing c with
  | zero => simp
  | succ n ih =>
    rw [Function.iterate_succ_apply]
    have h0 : crcSerialBit c = c >>> 1 := by rw [crcSerialBit, h 0 (by omega)]; simp
    rw [h0, ih _ (fun k hk => by rw [BitVec.getLsbD_ushiftRight]; exact h _ (by omega)), ← BitVec.shiftRight_add, Nat.add_comm]

/-- A word is its low byte and the rest. -/
theorem word_split (c : Word) : c = (c.setWidth 8).setWidth 32 ^^^ (c >>> 8 <<< 8) := by
  ext i hi; simp; grind

/-- The table engine is the bit-serial engine (40_checksum.md R112). -/
theorem crcStep_eq_serial (c : Word) (d : Byte) : crcStep crcTable c d = crcSerialByte c d := by
  rw [crcStep, tableAt_crcTable, tableEntry_eq_serial, crcSerialByte]
  rw [(word_split (c ^^^ d.setWidth 32)).trans rfl, crcSerialBit_iterate_xor,
    crcSerialBit_iterate_shift 8 ((c ^^^ d.setWidth 32) >>> 8 <<< 8)]
  · congr 1
    · rw [← word_split]
    · ext i hi; simp; grind
  · intro k hk
    simp; omega

theorem crc32Bytes_eq_serial (bs : List Byte) : crc32Bytes crcTable bs = crcSerial bs := by
  rw [crc32Bytes, crcSerial, show crcStep crcTable = crcSerialByte from funext fun c => funext fun d => crcStep_eq_serial c d]

/-! ### The Adler sums -/

/-- One step keeps the sums below the modulus (10_state.md R33). -/
theorem adlerStep_le (ab : Half × Half) (d : Byte) : (adlerStep ab d).1.toNat ≤ 65520 ∧ (adlerStep ab d).2.toNat ≤ 65520 := by
  simp only [adlerStep, adlerMod, BitVec.toNat_ofNat]
  omega

theorem adlerBytes_le {ab : Half × Half} (h : ab.1.toNat ≤ 65520 ∧ ab.2.toNat ≤ 65520) (bs : List Byte) :
    (adlerBytes ab bs).1.toNat ≤ 65520 ∧ (adlerBytes ab bs).2.toNat ≤ 65520 := by
  induction bs generalizing ab with
  | nil => exact h
  | cons d bs ih => exact ih (adlerStep_le ab d)

/-- Incrementality (40_checksum.md R121). -/
theorem adlerBytes_append (ab : Half × Half) (bs cs : List Byte) :
    adlerBytes ab (bs ++ cs) = adlerBytes (adlerBytes ab bs) cs := List.foldl_append

@[simp] theorem adlerBytes_cons (ab : Half × Half) (d : Byte) (bs : List Byte) :
    adlerBytes ab (d :: bs) = adlerBytes (adlerStep ab d) bs := rfl

@[simp] theorem adlerBytes_nil (ab : Half × Half) : adlerBytes ab [] = ab := rfl

/-- The sums in closed form (40_checksum.md R121). -/
theorem adlerBytes_map (n : Nat) (f : Nat → Byte) (ab : Half × Half) (h : ab.1.toNat ≤ 65520 ∧ ab.2.toNat ≤ 65520) :
    (adlerBytes ab ((List.range n).map f)).1.toNat =
      (ab.1.toNat + Finset.sum (Finset.range n) (fun k => (f k).toNat)) % 65521 ∧
    (adlerBytes ab ((List.range n).map f)).2.toNat =
      (ab.2.toNat + n * ab.1.toNat + Finset.sum (Finset.range n) (fun k => (n - k) * (f k).toNat)) % 65521 := by
  induction n generalizing f ab with
  | zero => simp; omega
  | succ n ih =>
    have hs := ih (fun k => f (k + 1)) (adlerStep ab (f 0)) (adlerStep_le _ _)
    have e : (List.range (n + 1)).map f = f 0 :: (List.range n).map (fun k => f (k + 1)) := by
      rw [List.range_succ_eq_map]; simp [Function.comp_def]
    rw [e, adlerBytes_cons, hs.1, hs.2, Finset.sum_range_succ', Finset.sum_range_succ']
    have h1 : (adlerStep ab (f 0)).1.toNat = (ab.1.toNat + (f 0).toNat) % 65521 := by
      simp only [adlerStep, adlerMod, BitVec.toNat_ofNat]; omega
    have h2 : (adlerStep ab (f 0)).2.toNat = (ab.2.toNat + (ab.1.toNat + (f 0).toNat) % 65521) % 65521 := by
      simp only [adlerStep, adlerMod, BitVec.toNat_ofNat]; omega
    rw [h1, h2]
    simp only [Nat.add_sub_add_right, Nat.sub_zero]
    constructor
    · omega
    · generalize Finset.sum (Finset.range n) (fun k => (n - k) * (f (k + 1)).toNat) = S
      generalize ab.1.toNat = a, ab.2.toNat = b, (f 0).toNat = d
      have : (n * ((a + d) % 65521)) % 65521 = (n * (a + d)) % 65521 := by simp [Nat.mul_mod]
      have e1 : (n + 1) * a = n * a + a := by ring
      have e2 : (n + 1) * d = n * d + d := by ring
      have e3 : n * (a + d) = n * a + n * d := by ring
      rw [e1, e2]; rw [e3] at this; omega

end Sys2Proof.Machine
end

