-- ==== Sys2Proof/Laws/Decode.lean ====
section
/-! SUPPORT. The fields of a word in each format, a word from its fields, and that the rows of the command table are told
apart by the opcode. -/

namespace Sys2Proof

/-! ### Fields of a format R word -/

section FormatR
variable (op : Byte) (rd rs1 rs2 rs3 rs4 : Reg)

@[simp] theorem opField_formatR : opField (formatR op rd rs1 rs2 rs3 rs4) = op := by
  ext i hi; simp [opField, formatR]; grind
@[simp] theorem rdField_formatR : rdField (formatR op rd rs1 rs2 rs3 rs4) = rd := by
  ext i hi; simp [rdField, formatR]; grind
@[simp] theorem rs1Field_formatR : rs1Field (formatR op rd rs1 rs2 rs3 rs4) = rs1 := by
  ext i hi; simp [rs1Field, formatR]; grind
@[simp] theorem rs2Field_formatR : rs2Field (formatR op rd rs1 rs2 rs3 rs4) = rs2 := by
  ext i hi; simp [rs2Field, formatR]; grind
@[simp] theorem rs3Field_formatR : rs3Field (formatR op rd rs1 rs2 rs3 rs4) = rs3 := by
  ext i hi; simp [rs3Field, formatR]; grind
@[simp] theorem rs4Field_formatR : rs4Field (formatR op rd rs1 rs2 rs3 rs4) = rs4 := by
  ext i hi; simp [rs4Field, formatR]; grind
@[simp] theorem low_formatR : (formatR op rd rs1 rs2 rs3 rs4).extractLsb' 0 4 = 0 := by
  ext i hi; simp [formatR]; grind

end FormatR

/-! ### Fields of a format I word -/

section FormatI
variable (op : Byte) (rd rs1 : Reg) (imm : Half)

@[simp] theorem opField_formatI : opField (formatI op rd rs1 imm) = op := by
  ext i hi; simp [opField, formatI]; grind
@[simp] theorem rdField_formatI : rdField (formatI op rd rs1 imm) = rd := by
  ext i hi; simp [rdField, formatI]; grind
@[simp] theorem rs1Field_formatI : rs1Field (formatI op rd rs1 imm) = rs1 := by
  ext i hi; simp [rs1Field, formatI]; grind
@[simp] theorem immField_formatI : immField (formatI op rd rs1 imm) = imm := by
  ext i hi; simp [immField, formatI]; grind

end FormatI

/-! ### A word from its fields -/

theorem formatR_fields (w : Word) (h : w.extractLsb' 0 4 = 0) :
    formatR (opField w) (rdField w) (rs1Field w) (rs2Field w) (rs3Field w) (rs4Field w) = w := by
  rw [formatR, ← h]
  ext i hi
  simp [opField, rdField, rs1Field, rs2Field, rs3Field, rs4Field]
  grind

theorem formatI_fields (w : Word) : formatI (opField w) (rdField w) (rs1Field w) (immField w) = w := by
  rw [formatI]
  ext i hi
  simp [opField, rdField, rs1Field, immField]
  grind

/-- The bits that a mask selects are those of the pattern. -/
theorem field_of_match (start len : Nat) {w m p : Word} (h : w &&& m = p)
    (hm : m.extractLsb' start len = BitVec.allOnes len) : w.extractLsb' start len = p.extractLsb' start len := by
  rw [← h, BitVec.extractLsb'_and, hm, BitVec.and_allOnes]

/-- A format R word from the values of its fields. -/
theorem formatR_of_fields {w : Word} {op : Byte} {rd rs1 rs2 rs3 rs4 : Reg} (h : w.extractLsb' 0 4 = 0) (h1 : opField w = op)
    (h2 : rdField w = rd) (h3 : rs1Field w = rs1) (h4 : rs2Field w = rs2) (h5 : rs3Field w = rs3) (h6 : rs4Field w = rs4) :
    formatR op rd rs1 rs2 rs3 rs4 = w := by
  subst h1 h2 h3 h4 h5 h6; exact formatR_fields w h

/-- A format I word from the values of its fields. -/
theorem formatI_of_fields {w : Word} {op : Byte} {rd rs1 : Reg} {imm : Half} (h1 : opField w = op) (h2 : rdField w = rd)
    (h3 : rs1Field w = rs1) (h4 : immField w = imm) : formatI op rd rs1 imm = w := by
  subst h1 h2 h3 h4; exact formatI_fields w

/-- Two words with the same four format I fields are the same word. -/
theorem word_ext {v w : Word} (h1 : opField v = opField w) (h2 : rdField v = rdField w) (h3 : rs1Field v = rs1Field w)
    (h4 : immField v = immField w) : v = w := by
  rw [← formatI_fields v, ← formatI_fields w, h1, h2, h3, h4]

/-! ### The command table -/

/-- No two rows have the same opcode (30_encoding.md R86). -/
theorem rows_pairwise : rows.Pairwise (fun r r' => opField r.pattern ≠ opField r'.pattern) := by decide

/-- Every row fixes the whole opcode. -/
theorem rows_mask : ∀ r ∈ rows, r.mask.extractLsb' 24 8 = BitVec.allOnes 8 := by decide

/-- A word that matches a row has the row's opcode. -/
theorem opField_of_match {r : Row} (hr : r ∈ rows) {w : Word} (h : w &&& r.mask = r.pattern) :
    opField w = opField r.pattern := field_of_match 24 8 h (rows_mask r hr)

/-- Among rows with different opcodes, the row that a word matches is the first that it matches. -/
theorem find?_selects {l : List Row} (hl : l.Pairwise (fun r r' => opField r.pattern ≠ opField r'.pattern)) {r : Row}
    (hr : r ∈ l) {w : Word} (hw : r.selects w = true)
    (ho : ∀ b ∈ l, b.selects w = true → opField b.pattern = opField r.pattern) : l.find? (·.selects w) = some r := by
  induction l with
  | nil => simp at hr
  | cons c t ih =>
    rw [List.pairwise_cons] at hl
    rcases List.mem_cons.mp hr with rfl | ht
    · simp [List.find?, hw]
    · have hc : c.selects w = false := by
        cases h : c.selects w with
        | false => rfl
        | true => exact absurd (ho c (by simp) h) (hl.1 r ht)
      simp only [List.find?, hc]
      exact ih hl.2 ht (fun b hb => ho b (by simp [hb]))

/-- A word that matches a row decodes to the row's command (30_encoding.md R81). -/
theorem decode_of_match {r : Row} (hr : r ∈ rows) {w : Word} (h : w &&& r.mask = r.pattern) :
    decode w = .ok (r.build w) := by
  have hs : rows.find? (·.selects w) = some r :=
    find?_selects rows_pairwise hr (by simpa [Row.selects] using h) (fun b hb hw =>
      (opField_of_match hb (by simpa [Row.selects] using hw)).symm.trans (opField_of_match hr h))
  unfold decode
  rw [hs]

/-- A word decodes to a command only through a row that it matches. -/
theorem match_of_decode {w : Word} {i : Instr} (h : decode w = .ok i) :
    ∃ r ∈ rows, w &&& r.mask = r.pattern ∧ r.build w = i := by
  unfold decode at h
  split at h
  case h_1 r hr =>
    refine ⟨r, List.mem_of_find?_eq_some hr, by simpa [Row.selects] using List.find?_some hr, by simpa using h⟩
  case h_2 => split at h <;> cases h

/-- A word that matches no row is no command. -/
theorem decode_of_no_match {w : Word} (h : ∀ r ∈ rows, w &&& r.mask ≠ r.pattern) : ∃ e, decode w = .error e := by
  have hn : rows.find? (·.selects w) = none := by
    rw [List.find?_eq_none]
    exact fun r hr => by simpa [Row.selects] using h r hr
  unfold decode
  rw [hn]
  dsimp only
  split <;> exact ⟨_, rfl⟩

end Sys2Proof
end

