-- ==== Sys2Proof/Laws/State.lean ====
section
/-! SUPPORT. What each state update does to each field, by `rfl`, so that no proof unfolds an update. -/

namespace Sys2Proof.Machine

/-! ### `writeX` -/

@[simp] theorem writeX_x (s : State) (i : Reg) (v : Word) : (writeX s i v).x = s.x.set i.toNat v := rfl
@[simp] theorem writeX_M (s : State) (i : Reg) (v : Word) : (writeX s i v).M = s.M := rfl
@[simp] theorem writeX_T (s : State) (i : Reg) (v : Word) : (writeX s i v).T = s.T := rfl
@[simp] theorem writeX_TV (s : State) (i : Reg) (v : Word) : (writeX s i v).TV = s.TV := rfl
@[simp] theorem writeX_A (s : State) (i : Reg) (v : Word) : (writeX s i v).A = s.A := rfl
@[simp] theorem writeX_B (s : State) (i : Reg) (v : Word) : (writeX s i v).B = s.B := rfl
@[simp] theorem writeX_HIATTR (s : State) (i : Reg) (v : Word) : (writeX s i v).HIATTR = s.HIATTR := rfl
@[simp] theorem writeX_BANK (s : State) (i : Reg) (v : Word) : (writeX s i v).BANK = s.BANK := rfl
@[simp] theorem writeX_ERR (s : State) (i : Reg) (v : Word) : (writeX s i v).ERR = s.ERR := rfl
@[simp] theorem writeX_ERRINFO (s : State) (i : Reg) (v : Word) : (writeX s i v).ERRINFO = s.ERRINFO := rfl
@[simp] theorem writeX_pending (s : State) (i : Reg) (v : Word) : (writeX s i v).pending = s.pending := rfl
@[simp] theorem writeX_answers (s : State) (i : Reg) (v : Word) : (writeX s i v).answers = s.answers := rfl

/-! ### `withM` -/

@[simp] theorem withM_x (s : State) (m : Memory) : (withM s m).x = s.x := rfl
@[simp] theorem withM_M (s : State) (m : Memory) : (withM s m).M = m := rfl
@[simp] theorem withM_T (s : State) (m : Memory) : (withM s m).T = s.T := rfl
@[simp] theorem withM_TV (s : State) (m : Memory) : (withM s m).TV = s.TV := rfl
@[simp] theorem withM_A (s : State) (m : Memory) : (withM s m).A = s.A := rfl
@[simp] theorem withM_B (s : State) (m : Memory) : (withM s m).B = s.B := rfl
@[simp] theorem withM_HIATTR (s : State) (m : Memory) : (withM s m).HIATTR = s.HIATTR := rfl
@[simp] theorem withM_BANK (s : State) (m : Memory) : (withM s m).BANK = s.BANK := rfl
@[simp] theorem withM_ERR (s : State) (m : Memory) : (withM s m).ERR = s.ERR := rfl
@[simp] theorem withM_ERRINFO (s : State) (m : Memory) : (withM s m).ERRINFO = s.ERRINFO := rfl
@[simp] theorem withM_pending (s : State) (m : Memory) : (withM s m).pending = s.pending := rfl
@[simp] theorem withM_answers (s : State) (m : Memory) : (withM s m).answers = s.answers := rfl

/-! ### `withSums` -/

@[simp] theorem withSums_x (s : State) (ab : Half × Half) : (withSums s ab).x = s.x := rfl
@[simp] theorem withSums_M (s : State) (ab : Half × Half) : (withSums s ab).M = s.M := rfl
@[simp] theorem withSums_T (s : State) (ab : Half × Half) : (withSums s ab).T = s.T := rfl
@[simp] theorem withSums_TV (s : State) (ab : Half × Half) : (withSums s ab).TV = s.TV := rfl
@[simp] theorem withSums_A (s : State) (ab : Half × Half) : (withSums s ab).A = ab.1 := rfl
@[simp] theorem withSums_B (s : State) (ab : Half × Half) : (withSums s ab).B = ab.2 := rfl
@[simp] theorem withSums_HIATTR (s : State) (ab : Half × Half) : (withSums s ab).HIATTR = s.HIATTR := rfl
@[simp] theorem withSums_BANK (s : State) (ab : Half × Half) : (withSums s ab).BANK = s.BANK := rfl
@[simp] theorem withSums_ERR (s : State) (ab : Half × Half) : (withSums s ab).ERR = s.ERR := rfl
@[simp] theorem withSums_ERRINFO (s : State) (ab : Half × Half) : (withSums s ab).ERRINFO = s.ERRINFO := rfl
@[simp] theorem withSums_pending (s : State) (ab : Half × Half) : (withSums s ab).pending = s.pending := rfl
@[simp] theorem withSums_answers (s : State) (ab : Half × Half) : (withSums s ab).answers = s.answers := rfl

/-! ### `withError` -/

@[simp] theorem withError_x (s : State) (c : Byte) (w : Word) : (withError s c w).x = s.x := rfl
@[simp] theorem withError_M (s : State) (c : Byte) (w : Word) : (withError s c w).M = s.M := rfl
@[simp] theorem withError_T (s : State) (c : Byte) (w : Word) : (withError s c w).T = s.T := rfl
@[simp] theorem withError_TV (s : State) (c : Byte) (w : Word) : (withError s c w).TV = s.TV := rfl
@[simp] theorem withError_A (s : State) (c : Byte) (w : Word) : (withError s c w).A = s.A := rfl
@[simp] theorem withError_B (s : State) (c : Byte) (w : Word) : (withError s c w).B = s.B := rfl
@[simp] theorem withError_HIATTR (s : State) (c : Byte) (w : Word) : (withError s c w).HIATTR = s.HIATTR := rfl
@[simp] theorem withError_BANK (s : State) (c : Byte) (w : Word) : (withError s c w).BANK = s.BANK := rfl
@[simp] theorem withError_ERR (s : State) (c : Byte) (w : Word) : (withError s c w).ERR = c := rfl
@[simp] theorem withError_ERRINFO (s : State) (c : Byte) (w : Word) : (withError s c w).ERRINFO = w := rfl
@[simp] theorem withError_pending (s : State) (c : Byte) (w : Word) : (withError s c w).pending = s.pending := rfl
@[simp] theorem withError_answers (s : State) (c : Byte) (w : Word) : (withError s c w).answers = s.answers := rfl

/-! ### `clearError` -/

@[simp] theorem clearError_x (s : State) : (clearError s).x = s.x := rfl
@[simp] theorem clearError_M (s : State) : (clearError s).M = s.M := rfl
@[simp] theorem clearError_T (s : State) : (clearError s).T = s.T := rfl
@[simp] theorem clearError_TV (s : State) : (clearError s).TV = s.TV := rfl
@[simp] theorem clearError_A (s : State) : (clearError s).A = s.A := rfl
@[simp] theorem clearError_B (s : State) : (clearError s).B = s.B := rfl
@[simp] theorem clearError_HIATTR (s : State) : (clearError s).HIATTR = s.HIATTR := rfl
@[simp] theorem clearError_BANK (s : State) : (clearError s).BANK = s.BANK := rfl
@[simp] theorem clearError_ERR (s : State) : (clearError s).ERR = 0 := rfl
@[simp] theorem clearError_ERRINFO (s : State) : (clearError s).ERRINFO = 0 := rfl
@[simp] theorem clearError_pending (s : State) : (clearError s).pending = s.pending := rfl
@[simp] theorem clearError_answers (s : State) : (clearError s).answers = s.answers := rfl

/-! ### `answer` -/

@[simp] theorem answer_x (s : State) (r : HostAnswer) : (answer s r).x = s.x := rfl
@[simp] theorem answer_M (s : State) (r : HostAnswer) : (answer s r).M = s.M := rfl
@[simp] theorem answer_T (s : State) (r : HostAnswer) : (answer s r).T = s.T := rfl
@[simp] theorem answer_TV (s : State) (r : HostAnswer) : (answer s r).TV = s.TV := rfl
@[simp] theorem answer_A (s : State) (r : HostAnswer) : (answer s r).A = s.A := rfl
@[simp] theorem answer_B (s : State) (r : HostAnswer) : (answer s r).B = s.B := rfl
@[simp] theorem answer_HIATTR (s : State) (r : HostAnswer) : (answer s r).HIATTR = s.HIATTR := rfl
@[simp] theorem answer_BANK (s : State) (r : HostAnswer) : (answer s r).BANK = s.BANK := rfl
@[simp] theorem answer_ERR (s : State) (r : HostAnswer) : (answer s r).ERR = s.ERR := rfl
@[simp] theorem answer_ERRINFO (s : State) (r : HostAnswer) : (answer s r).ERRINFO = s.ERRINFO := rfl
@[simp] theorem answer_pending (s : State) (r : HostAnswer) : (answer s r).pending = s.pending := rfl
@[simp] theorem answer_answers (s : State) (r : HostAnswer) : (answer s r).answers = s.answers ++ [r] := rfl

/-! ### `resetBlock` -/

@[simp] theorem resetBlock_x (s : State) : (resetBlock s).x = Vector.replicate 16 0 := rfl
@[simp] theorem resetBlock_M (s : State) : (resetBlock s).M = s.M.afterReset := rfl
@[simp] theorem resetBlock_T (s : State) : (resetBlock s).T = s.T := rfl
@[simp] theorem resetBlock_TV (s : State) : (resetBlock s).TV = false := rfl
@[simp] theorem resetBlock_A (s : State) : (resetBlock s).A = 1 := rfl
@[simp] theorem resetBlock_B (s : State) : (resetBlock s).B = 0 := rfl
@[simp] theorem resetBlock_HIATTR (s : State) : (resetBlock s).HIATTR = false := rfl
@[simp] theorem resetBlock_BANK (s : State) : (resetBlock s).BANK = 0 := rfl
@[simp] theorem resetBlock_ERR (s : State) : (resetBlock s).ERR = 0 := rfl
@[simp] theorem resetBlock_ERRINFO (s : State) : (resetBlock s).ERRINFO = 0 := rfl
@[simp] theorem resetBlock_pending (s : State) : (resetBlock s).pending = s.pending := rfl
@[simp] theorem resetBlock_answers (s : State) : (resetBlock s).answers = s.answers := rfl

/-! ### `ensureTable` -/

@[simp] theorem ensureTable_x (s : State) : (ensureTable s).x = s.x := by
  unfold ensureTable; split <;> rfl
@[simp] theorem ensureTable_M (s : State) : (ensureTable s).M = s.M := by
  unfold ensureTable; split <;> rfl
@[simp] theorem ensureTable_A (s : State) : (ensureTable s).A = s.A := by
  unfold ensureTable; split <;> rfl
@[simp] theorem ensureTable_B (s : State) : (ensureTable s).B = s.B := by
  unfold ensureTable; split <;> rfl
@[simp] theorem ensureTable_HIATTR (s : State) : (ensureTable s).HIATTR = s.HIATTR := by
  unfold ensureTable; split <;> rfl
@[simp] theorem ensureTable_BANK (s : State) : (ensureTable s).BANK = s.BANK := by
  unfold ensureTable; split <;> rfl
@[simp] theorem ensureTable_ERR (s : State) : (ensureTable s).ERR = s.ERR := by
  unfold ensureTable; split <;> rfl
@[simp] theorem ensureTable_ERRINFO (s : State) : (ensureTable s).ERRINFO = s.ERRINFO := by
  unfold ensureTable; split <;> rfl
@[simp] theorem ensureTable_pending (s : State) : (ensureTable s).pending = s.pending := by
  unfold ensureTable; split <;> rfl
@[simp] theorem ensureTable_answers (s : State) : (ensureTable s).answers = s.answers := by
  unfold ensureTable; split <;> rfl

/-- `EnsureTable` leaves `TV = 1` (R111). -/
@[simp] theorem ensureTable_TV (s : State) : (ensureTable s).TV = true := by
  unfold ensureTable; split <;> simp_all

/-- `EnsureTable` leaves the table of R110 in `T`, provided a valid `T` holds it already (R111). -/
theorem ensureTable_T (s : State) (h : s.TV = true → s.T = crcTable) : (ensureTable s).T = crcTable := by
  unfold ensureTable; split <;> simp_all

/-- `EnsureTable` changes nothing but `T` and `TV`. -/
theorem ensureTable_eq (s : State) : ensureTable s = { s with T := (ensureTable s).T, TV := true } := by
  cases h : s.TV
  · simp [ensureTable, h]
  · cases s; simp_all [ensureTable]

/-! ### Registers -/

@[simp] theorem readX_writeX_same (s : State) (i : Reg) (v : Word) : readX (writeX s i v) i = v := by
  simp [readX, writeX]

theorem readX_writeX_other (s : State) (i j : Reg) (v : Word) (h : j ≠ i) : readX (writeX s i v) j = readX s j := by
  have : i.toNat ≠ j.toNat := fun e => h (BitVec.eq_of_toNat_eq e.symm)
  simp [readX, writeX, Vector.getElem_set_ne _ _ this]

@[simp] theorem readX_withM (s : State) (m : Memory) (i : Reg) : readX (withM s m) i = readX s i := rfl
@[simp] theorem readX_withSums (s : State) (ab : Half × Half) (i : Reg) : readX (withSums s ab) i = readX s i := rfl
@[simp] theorem readX_withError (s : State) (c : Byte) (w : Word) (i : Reg) : readX (withError s c w) i = readX s i := rfl
@[simp] theorem readX_clearError (s : State) (i : Reg) : readX (clearError s) i = readX s i := rfl
@[simp] theorem readX_answer (s : State) (r : HostAnswer) (i : Reg) : readX (answer s r) i = readX s i := rfl
@[simp] theorem readX_ensureTable (s : State) (i : Reg) : readX (ensureTable s) i = readX s i := by simp [readX]

/-- A number below `2^32` is read back from the register it was written to. -/
theorem readX_writeNat_toNat (s : State) (i : Reg) (v : Nat) (h : v < 2 ^ 32) : (readX (writeNat s i v) i).toNat = v := by
  simp [writeNat]; omega

end Sys2Proof.Machine
end

