-- ==== Sys2Proof/Laws/Writers.lean ====
section
/-! SUPPORT. What the loops of PALPACK, CHUNK and ZFRAME leave in memory: which region they stay in and which bytes they
put there. -/

namespace Sys2Proof.Machine

@[simp] theorem length_le16 (v : Word) : (le16 v).length = 2 := rfl
@[simp] theorem length_be16 (v : Word) : (be16 v).length = 2 := rfl
@[simp] theorem length_be32 (v : Word) : (be32 v).length = 4 := rfl
@[simp] theorem length_blockHeader (W H y : Nat) : (blockHeader W H y).length = 5 := rfl
@[simp] theorem length_zTrailer (ab : Half × Half) : (zTrailer ab).length = 4 := rfl
@[simp] theorem length_zlibHeader : zlibHeader.length = 2 := rfl

/-! ### PALPACK (42_palette.md R141) -/

theorem palEntry_within (dst src i : Nat) (m : Memory) : m.Within (palEntry dst src i m) (dst + 3 * i) 3 :=
  m.within_writeBytes _ _

theorem palPack_within (dst src count : Nat) (m : Memory) : m.Within (palPack dst src count m) dst (3 * count) :=
  Memory.within_loop (fun i t _ => (palEntry_within dst src i t).mono (by omega) (by omega))

/-- Entry `i` is repacked from the bytes that are seen when the entries before it have been written (R69, R141). -/
theorem palPack_seen (dst src count : Nat) (m : Memory) {i : Nat} (hi : i < count) :
    let t := palPack dst src count m
    t.read (dst + 3 * i) = m.seen t dst (dst + 3 * i) (src + 4 * i + 2) ∧
    t.read (dst + 3 * i + 1) = m.seen t dst (dst + 3 * i) (src + 4 * i + 1) ∧
    t.read (dst + 3 * i + 2) = m.seen t dst (dst + 3 * i) (src + 4 * i) := by
  have key := loop_induct (body := palEntry dst src) (s := m) (n := count)
    (fun k (t : Memory) => m.Within t dst (3 * k) ∧ ∀ j, j < k →
      t.read (dst + 3 * j) = m.seen t dst (dst + 3 * j) (src + 4 * j + 2) ∧
      t.read (dst + 3 * j + 1) = m.seen t dst (dst + 3 * j) (src + 4 * j + 1) ∧
      t.read (dst + 3 * j + 2) = m.seen t dst (dst + 3 * j) (src + 4 * j))
    ⟨.refl m _ _, fun j hj => absurd hj (Nat.not_lt_zero j)⟩
    (fun k t hk ⟨hw, hr⟩ => by
      have hp := palEntry_within dst src k t
      have hs : ∀ j, j ≤ k → ∀ a, m.seen (palEntry dst src k t) dst (dst + 3 * j) a = m.seen t dst (dst + 3 * j) a :=
        fun j hj => Memory.seen_congr (fun b _ hb => hp.other b (by omega))
      refine ⟨(hw.mono (by omega) (by omega)).trans (hp.mono (by omega) (by omega)), fun j hj => ?_⟩
      simp only [hs j (by omega)]
      by_cases hjk : j < k
      · rw [hp.other _ (by omega), hp.other _ (by omega), hp.other _ (by omega)]
        exact hr j hjk
      · obtain rfl : j = k := by omega
        have at_ := t.read_writeBytes_at (dst + 3 * j) [t.read (src + 4 * j + 2), t.read (src + 4 * j + 1), t.read (src + 4 * j)]
        exact ⟨(at_ 0 (by simp)).trans (hw.read_eq_seen _), (at_ 1 (by simp)).trans (hw.read_eq_seen _),
          (at_ 2 (by simp)).trans (hw.read_eq_seen _)⟩)
  exact key.2 i hi

/-- With disjoint regions, or exactly in place, entry `i` is repacked from the bytes that stood there before. -/
theorem palPack_read {dst src count : Nat} (m : Memory) (hd : disjoint src (4 * count) dst (3 * count) ∨ dst = src)
    {i : Nat} (hi : i < count) :
    (palPack dst src count m).read (dst + 3 * i) = m.read (src + 4 * i + 2) ∧
    (palPack dst src count m).read (dst + 3 * i + 1) = m.read (src + 4 * i + 1) ∧
    (palPack dst src count m).read (dst + 3 * i + 2) = m.read (src + 4 * i) := by
  obtain ⟨h0, h1, h2⟩ := palPack_seen dst src count m hi
  have hb : ∀ c, c < 4 → src + 4 * i + c < dst ∨ dst + 3 * i ≤ src + 4 * i + c := fun c hc => by
    rcases hd with hd | rfl
    · have := hd (src + 4 * i + c); omega
    · omega
  exact ⟨h0.trans (Memory.seen_before (hb 2 (by omega))), h1.trans (Memory.seen_before (hb 1 (by omega))),
    h2.trans (Memory.seen_before (hb 0 (by omega)))⟩

/-! ### CHUNK (44_chunk.md R170) -/

theorem copyBytes_within (dst src n : Nat) (m : Memory) : m.Within (copyBytes dst src n m) dst n :=
  Memory.within_loop (fun i t _ => (t.within_write (dst + i) _).mono (by omega) (by omega))

/-- Byte `k` is copied from what is seen when the bytes before it have been written (R69, R170). -/
theorem copyBytes_seen (dst src n : Nat) (m : Memory) {k : Nat} (hk : k < n) :
    (copyBytes dst src n m).read (dst + k) = m.seen (copyBytes dst src n m) dst (dst + k) (src + k) := by
  have key := loop_induct (body := fun i (t : Memory) => t.write (dst + i) (t.read (src + i))) (s := m) (n := n)
    (fun j (t : Memory) => m.Within t dst j ∧ ∀ k, k < j → t.read (dst + k) = m.seen t dst (dst + k) (src + k))
    ⟨.refl m _ _, fun k hk => absurd hk (Nat.not_lt_zero k)⟩
    (fun j t hj ⟨hw, hr⟩ => by
      have hp := t.within_write (dst + j) (t.read (src + j))
      refine ⟨(hw.mono (by omega) (by omega)).trans (hp.mono (by omega) (by omega)), fun k hk => ?_⟩
      rw [Memory.seen_congr (fun b _ hb => hp.other b (by omega)), Memory.read_write]
      split
      · obtain rfl : k = j := by omega
        exact hw.read_eq_seen _
      · exact hr k (by omega))
  exact key.2 k hk

theorem chunkBody_within (dst : Nat) (ty : Word) (src n : Nat) (m : Memory) :
    m.Within (chunkBody dst ty src n m) dst (8 + n) :=
  (((m.within_writeBytes dst _).mono (by omega) (by simp; omega)).trans
    ((Memory.within_writeBytes _ (dst + 4) _).mono (by omega) (by simp; omega))).trans
    ((copyBytes_within (dst + 8) src n _).mono (by omega) (by omega))

theorem chunkBytes_within (T : Vector Word 256) (dst : Nat) (ty : Word) (src n : Nat) (m : Memory) :
    m.Within (chunkBytes T dst ty src n m) dst (12 + n) :=
  ((chunkBody_within dst ty src n m).mono (by omega) (by omega)).trans
    ((Memory.within_writeBytes _ (dst + 8 + n) _).mono (by omega) (by simp; omega))

/-- The length field and the type tag of a chunk. -/
theorem chunkBody_head (dst : Nat) (ty : Word) (src n : Nat) (m : Memory) {k : Nat} (hk : k < 4) :
    (chunkBody dst ty src n m).read (dst + k) = (be32 (BitVec.ofNat 32 n))[k] ∧
    (chunkBody dst ty src n m).read (dst + 4 + k) = (be32 ty)[k] := by
  have hc := copyBytes_within (dst + 8) src n ((m.writeBytes dst (be32 (BitVec.ofNat 32 n))).writeBytes (dst + 4) (be32 ty))
  unfold chunkBody
  rw [hc.other _ (by omega), hc.other _ (by omega)]
  refine ⟨?_, Memory.read_writeBytes_at _ _ (be32 ty) k hk⟩
  rw [Memory.read_writeBytes_other _ _ _ (by omega)]
  exact Memory.read_writeBytes_at _ _ (be32 _) k hk

/-- Length, type and payload of the finished chunk are those of its body. -/
theorem chunkBytes_read_body (T : Vector Word 256) (dst : Nat) (ty : Word) (src n : Nat) (m : Memory) {b : Nat}
    (hb : b < dst + 8 + n) : (chunkBytes T dst ty src n m).read b = (chunkBody dst ty src n m).read b :=
  Memory.read_writeBytes_other _ _ _ (by omega)

/-- Payload byte `k` is copied from what is seen when length, type and the payload bytes before it have been written (R69,
R170, R174(c)). -/
theorem chunkBytes_seen (T : Vector Word 256) (dst : Nat) (ty : Word) (src n : Nat) (m : Memory) {k : Nat} (hk : k < n) :
    (chunkBytes T dst ty src n m).read (dst + 8 + k) =
      m.seen (chunkBytes T dst ty src n m) dst (dst + 8 + k) (src + k) := by
  have hb : ∀ b, b < dst + 8 + n → (chunkBytes T dst ty src n m).read b = (chunkBody dst ty src n m).read b :=
    fun b hb => chunkBytes_read_body T dst ty src n m hb
  rw [hb _ (by omega), Memory.seen_congr (fun b _ h => hb b (by omega))]
  have hhead : m.Within ((m.writeBytes dst (be32 (BitVec.ofNat 32 n))).writeBytes (dst + 4) (be32 ty)) dst 8 :=
    ((m.within_writeBytes dst _).mono (by omega) (by simp)).trans
      ((Memory.within_writeBytes _ (dst + 4) _).mono (by omega) (by simp))
  have hcopy := copyBytes_within (dst + 8) src n ((m.writeBytes dst (be32 (BitVec.ofNat 32 n))).writeBytes (dst + 4) (be32 ty))
  exact (copyBytes_seen (dst + 8) src n _ hk).trans
    (hhead.seen_seen (by omega) (by omega) (fun b _ h => hcopy.other b (by omega)) _)

/-- With disjoint regions the payload of a chunk is verbatim. -/
theorem chunkBytes_payload (T : Vector Word 256) {dst : Nat} (ty : Word) {src n : Nat} (m : Memory)
    (hd : disjoint src n dst (12 + n)) {k : Nat} (hk : k < n) :
    (chunkBytes T dst ty src n m).read (dst + 8 + k) = m.read (src + k) :=
  (chunkBytes_seen T dst ty src n m hk).trans (Memory.seen_before (by have := hd (src + k); omega))

/-- The CRC field of the finished chunk is the CRC of its own type and payload bytes (R172). -/
theorem chunkBytes_crc (T : Vector Word 256) (dst : Nat) (ty : Word) (src n : Nat) (m : Memory) :
    (chunkBytes T dst ty src n m).readBytes (dst + 8 + n) 4 =
      be32 (crc32Bytes T ((chunkBytes T dst ty src n m).readBytes (dst + 4) (4 + n))) := by
  have h : (chunkBytes T dst ty src n m).readBytes (dst + 4) (4 + n) = (chunkBody dst ty src n m).readBytes (dst + 4) (4 + n) :=
    Memory.readBytes_congr (fun i hi => chunkBytes_read_body T dst ty src n m (by omega))
  rw [h, chunkBytes]
  exact Memory.readBytes_writeBytes _ _ _

/-! ### ZFRAME (43_zframe.md R159) -/

/-- The pixels of a row: where they are written, what is summed, and what each is made from: the source byte that is seen
when the pixels before it have been written. -/
theorem framePixels (hiattr : Bool) (bank : Word) (inp out n : Nat) (f : FrameState) :
    let g := loop n (framePixel hiattr bank inp out) f
    f.1.Within g.1 out n ∧ g.2 = adlerBytes f.2 (g.1.readBytes out n) ∧
    ∀ k, k < n → g.1.read (out + k) = reducePixel hiattr bank (f.1.seen g.1 out (out + k) (inp + k)) := by
  refine loop_induct (body := framePixel hiattr bank inp out) (s := f) (n := n)
    (fun j (g : FrameState) => f.1.Within g.1 out j ∧ g.2 = adlerBytes f.2 (g.1.readBytes out j) ∧
    ∀ k, k < j → g.1.read (out + k) = reducePixel hiattr bank (f.1.seen g.1 out (out + k) (inp + k)))
    ⟨.refl _ _ _, rfl, fun k hk => absurd hk (Nat.not_lt_zero k)⟩ (fun j g hj ⟨hw, hs, hr⟩ => ?_)
  have hp := g.1.within_write (out + j) (reducePixel hiattr bank (g.1.read (inp + j)))
  refine ⟨(hw.mono (by omega) (by omega)).trans (hp.mono (by omega) (by omega)), ?_, fun k hk => ?_⟩
  · have e := hp.readBytes (b := out) (k := j) (by omega)
    rw [Memory.readBytes_add]
    simp only [framePixel, e, Memory.readBytes, Memory.read_write_same, adlerBytes_append, ← hs]
    rfl
  · simp only [framePixel]
    rw [Memory.seen_congr (fun b _ hb => hp.other b (by omega)), Memory.read_write]
    split
    · obtain rfl : k = j := by omega
      rw [hw.read_eq_seen]
    · exact hr k (by omega)

/-- A row: it stays in its block, lays down header, filter byte and pixels, and sums filter byte and pixels. -/
theorem frameRow_spec (hiattr : Bool) (bank : Word) (dst src W H y : Nat) (f : FrameState) :
    let g := frameRow hiattr bank dst src W H y f
    let p := blockAddr dst W y
    f.1.Within g.1 p (W + 6) ∧
    (∀ k (hk : k < 5), g.1.read (p + k) = (blockHeader W H y)[k]) ∧ g.1.read (p + 5) = filterNone ∧
    g.2 = adlerBytes f.2 (g.1.readBytes (p + 5) (W + 1)) ∧
    ∀ k, k < W → g.1.read (p + 6 + k) = reducePixel hiattr bank (f.1.seen g.1 p (p + 6 + k) (src + y * W + k)) := by
  intro g p
  obtain ⟨hw, hs, hr⟩ := framePixels hiattr bank (src + y * W) (p + 6) W
    ((f.1.writeBytes p (blockHeader W H y)).write (p + 5) filterNone, adlerStep f.2 filterNone)
  have hh := f.1.within_writeBytes p (blockHeader W H y)
  have hf := (f.1.writeBytes p (blockHeader W H y)).within_write (p + 5) filterNone
  have hhead := (hh.mono (a := p) (n := 6) (by omega) (by simp)).trans (hf.mono (by omega) (by omega))
  have hfilter : g.1.read (p + 5) = filterNone := (hw.other _ (by omega)).trans (Memory.read_write_same _ _ _)
  refine ⟨(hhead.mono (by omega) (by omega)).trans (hw.mono (by omega) (by omega)), fun k hk => ?_, hfilter, ?_,
    fun k hk => ?_⟩
  · exact ((hw.other _ (by omega)).trans (hf.other _ (by omega))).trans (Memory.read_writeBytes_at _ _ (blockHeader W H y) k hk)
  · rw [show W + 1 = 1 + W by omega, Memory.readBytes_add]
    simp only [Memory.readBytes, hfilter, List.singleton_append, adlerBytes_cons]
    exact hs
  · refine (hr k hk).trans (congrArg _ ?_)
    exact hhead.seen_seen (by omega) (by omega) (fun b _ hb => hw.other b (by omega)) _

/-- The filter and pixel bytes of the first `n` rows, as they stand in a memory. -/
def frameBytes (m : Memory) (dst W n : Nat) : List Byte :=
  (List.range n).flatMap (fun y => m.readBytes (blockAddr dst W y + 5) (W + 1))

theorem frameBytes_succ (m : Memory) (dst W n : Nat) :
    frameBytes m dst W (n + 1) = frameBytes m dst W n ++ m.readBytes (blockAddr dst W n + 5) (W + 1) := by
  simp [frameBytes, List.range_succ]

theorem blockAddr_succ (dst W y : Nat) : blockAddr dst W (y + 1) = blockAddr dst W y + (W + 6) := by
  simp only [blockAddr, Nat.add_mul]; omega

theorem blockAddr_mono (dst W : Nat) {y z : Nat} (h : y ≤ z) : blockAddr dst W y ≤ blockAddr dst W z := by
  have := Nat.mul_le_mul_right (W + 6) h
  simp only [blockAddr]; omega

theorem blockAddr_ge (dst W y : Nat) : dst + 2 ≤ blockAddr dst W y := by simp only [blockAddr]; omega

theorem frameBytes_congr {m m' : Memory} {dst W n : Nat}
    (h : ∀ a, dst + 2 ≤ a → a < blockAddr dst W n → m'.read a = m.read a) : frameBytes m' dst W n = frameBytes m dst W n := by
  simp only [frameBytes, List.flatMap]
  congr 1
  refine List.map_congr_left (fun y hy => Memory.readBytes_congr (fun k hk => ?_))
  have h1 := blockAddr_ge dst W y
  have h2 := blockAddr_mono dst W (show y + 1 ≤ n from List.mem_range.mp hy)
  rw [blockAddr_succ] at h2
  exact h _ (by omega) (by omega)

/-- All rows: they stay between the header and the trailer, each row is laid down as R155 and R156 say, and the sums are the
Adler-32 of the filter and pixel bytes. Each pixel is made from the source byte that is seen when all stream bytes before it
have been written (R69). -/
theorem frameRows_spec (hiattr : Bool) (bank : Word) (dst src W H : Nat) (m : Memory) :
    let g := frameRows hiattr bank dst src W H m
    m.Within g.1 dst (2 + H * (W + 6)) ∧ g.1.read dst = 0x78 ∧ g.1.read (dst + 1) = 0x01 ∧
    (∀ y, y < H → (∀ k (hk : k < 5), g.1.read (blockAddr dst W y + k) = (blockHeader W H y)[k]) ∧
      g.1.read (blockAddr dst W y + 5) = filterNone) ∧
    g.2 = adlerBytes adlerSeed (frameBytes g.1 dst W H) ∧
    ∀ y k, y < H → k < W → g.1.read (blockAddr dst W y + 6 + k) =
      reducePixel hiattr bank (m.seen g.1 dst (blockAddr dst W y + 6 + k) (src + y * W + k)) := by
  refine loop_induct (body := frameRow hiattr bank dst src W H) (s := (m.writeBytes dst zlibHeader, adlerSeed)) (n := H)
    (fun n (g : FrameState) => m.Within g.1 dst (2 + n * (W + 6)) ∧ g.1.read dst = 0x78 ∧
    g.1.read (dst + 1) = 0x01 ∧
    (∀ y, y < n → (∀ k (hk : k < 5), g.1.read (blockAddr dst W y + k) = (blockHeader W H y)[k]) ∧
      g.1.read (blockAddr dst W y + 5) = filterNone) ∧
    g.2 = adlerBytes adlerSeed (frameBytes g.1 dst W n) ∧
    ∀ y k, y < n → k < W → g.1.read (blockAddr dst W y + 6 + k) =
      reducePixel hiattr bank (m.seen g.1 dst (blockAddr dst W y + 6 + k) (src + y * W + k))) ?_ ?_
  · refine ⟨(m.within_writeBytes dst zlibHeader).mono (by omega) (by simp), m.read_writeBytes_at dst zlibHeader 0 (by simp),
      m.read_writeBytes_at dst zlibHeader 1 (by simp), fun y hy => absurd hy (Nat.not_lt_zero y), rfl,
      fun y k hy => absurd hy (Nat.not_lt_zero y)⟩
  · intro n g hn ⟨hw, h0, h1, hrow, hs, hpix⟩
    obtain ⟨rw_, rh, rf, rs, rp⟩ := frameRow_spec hiattr bank dst src W H n g
    have hge := blockAddr_ge dst W n
    have hbefore : ∀ a, a < blockAddr dst W n → (frameRow hiattr bank dst src W H n g).1.read a = g.1.read a :=
      fun a ha => rw_.other a (by omega)
    have hblock : ∀ {y}, y < n → blockAddr dst W y + (W + 6) ≤ blockAddr dst W n := fun {y} hy => by
      have := blockAddr_mono dst W (show y + 1 ≤ n from hy)
      rwa [blockAddr_succ] at this
    have hmul : (n + 1) * (W + 6) = n * (W + 6) + (W + 6) := by ring
    have haddr : blockAddr dst W n = dst + 2 + n * (W + 6) := rfl
    refine ⟨(hw.mono (by omega) (by omega)).trans (rw_.mono (by omega) (by omega)), (hbefore _ (by omega)).trans h0,
      (hbefore _ (by omega)).trans h1, fun y hy => ?_, ?_, fun y k hy hk => ?_⟩
    · by_cases hyn : y < n
      · have := hblock hyn
        obtain ⟨hh, hf⟩ := hrow y hyn
        exact ⟨fun k hk => (hbefore _ (by omega)).trans (hh k hk), (hbefore _ (by omega)).trans hf⟩
      · obtain rfl : y = n := by omega
        exact ⟨rh, rf⟩
    · rw [frameBytes_succ, adlerBytes_append, frameBytes_congr (fun a _ ha => hbefore a ha), ← hs]
      exact rs
    · by_cases hyn : y < n
      · have := hblock hyn
        rw [hbefore _ (by omega), Memory.seen_congr (fun b _ hb => hbefore b (by omega))]
        exact hpix y k hyn hk
      · obtain rfl : y = n := by omega
        refine (rp k hk).trans (congrArg _ ?_)
        exact hw.seen_seen (by omega) (by omega) (fun b _ hb => hbefore b hb) _

/-- With disjoint regions each pixel is made from the source byte that stood there before. -/
theorem frameRows_pixel {hiattr : Bool} {bank : Word} {dst src W H : Nat} (m : Memory)
    (hd : disjoint src (W * H) dst (6 + H * (W + 6))) {y k : Nat} (hy : y < H) (hk : k < W) :
    (frameRows hiattr bank dst src W H m).1.read (blockAddr dst W y + 6 + k) =
      reducePixel hiattr bank (m.read (src + y * W + k)) := by
  obtain ⟨-, -, -, -, -, hpix⟩ := frameRows_spec hiattr bank dst src W H m
  have hsrc : y * W + W ≤ W * H := by
    have := Nat.mul_le_mul_right W (show y + 1 ≤ H from hy)
    rw [Nat.add_mul, Nat.mul_comm H] at this; omega
  have hend := blockAddr_mono dst W (show y + 1 ≤ H from hy)
  rw [blockAddr_succ] at hend
  have hlast : blockAddr dst W H = dst + 2 + H * (W + 6) := rfl
  refine (hpix y k hy hk).trans (congrArg _ (Memory.seen_before ?_))
  have := hd (src + y * W + k)
  omega

end Sys2Proof.Machine
end

