-- ==== Sys2Proof/Laws/Exec.lean ====
section
/-! SUPPORT. What the shared operations of the commands answer, in the words of Safety.lean: errors, bounds, register and
memory results. -/

namespace Sys2Proof.Machine

/-! ### Errors and bounds -/

theorem raise_eq (e : ErrorName) (w : Word) (s : State) : raise e w s = .next (s.erring (errCode e) w) := rfl

@[simp] theorem erring_ERR (s : State) (c : Byte) (w : Word) : (s.erring c w).ERR = c := rfl
@[simp] theorem erring_ERRINFO (s : State) (c : Byte) (w : Word) : (s.erring c w).ERRINFO = w := rfl
@[simp] theorem erring_x (s : State) (c : Byte) (w : Word) : (s.erring c w).x = s.x := rfl
@[simp] theorem erring_M (s : State) (c : Byte) (w : Word) : (s.erring c w).M = s.M := rfl
@[simp] theorem erring_T (s : State) (c : Byte) (w : Word) : (s.erring c w).T = s.T := rfl
@[simp] theorem erring_TV (s : State) (c : Byte) (w : Word) : (s.erring c w).TV = s.TV := rfl
@[simp] theorem erring_A (s : State) (c : Byte) (w : Word) : (s.erring c w).A = s.A := rfl
@[simp] theorem erring_B (s : State) (c : Byte) (w : Word) : (s.erring c w).B = s.B := rfl
@[simp] theorem erring_HIATTR (s : State) (c : Byte) (w : Word) : (s.erring c w).HIATTR = s.HIATTR := rfl
@[simp] theorem erring_BANK (s : State) (c : Byte) (w : Word) : (s.erring c w).BANK = s.BANK := rfl
@[simp] theorem erring_pending (s : State) (c : Byte) (w : Word) : (s.erring c w).pending = s.pending := rfl
@[simp] theorem erring_answers (s : State) (c : Byte) (w : Word) : (s.erring c w).answers = s.answers := rfl
@[simp] theorem readX_erring (s : State) (c : Byte) (w : Word) (r : Reg) : readX (s.erring c w) r = readX s r := rfl

theorem inRange_iff (s : State) (a n : Nat) : inRange s a n = true ↔ a + n ≤ s.M.size.val := by simp [inRange]

/-! ### Frames -/

theorem onlyX_writeX (s : State) (rd : Reg) (v : Word) : s.onlyX (writeX s rd v) rd :=
  ⟨rfl, fun r hr => readX_writeX_other s rd r v hr⟩

theorem otherX_writeNat (s t : State) (rd : Reg) (v : Nat) (h : t.x = s.x) : s.otherX (writeNat t rd v) rd :=
  fun r hr => (readX_writeX_other t rd r _ hr).trans (by simp [readX, h])

theorem sameOutside_of_within {m m' : Memory} {a n : Nat} (h : m.Within m' a n) : m.sameOutside m' a n := ⟨h.size, h.other⟩

theorem onlyM_withM {s : State} {m : Memory} {a n : Nat} (h : s.M.Within m a n) : s.onlyM (withM s m) a n :=
  ⟨rfl, h.size, h.other⟩

/-! ### Bytes of a value -/

theorem toNat_byteAt (v : Word) (sh : Nat) : (byteAt v sh).toNat = v.toNat / 2 ^ sh % 256 := by
  simp [byteAt, Nat.shiftRight_eq_div_pow]

theorem getElem_be32 (v : Word) (k : Nat) (h : k < 4) : ((be32 v)[k]'h).toNat = v.toNat / 256 ^ (3 - k) % 256 := by
  match k, h with
  | 0, _ => exact toNat_byteAt v 24
  | 1, _ => exact toNat_byteAt v 16
  | 2, _ => exact toNat_byteAt v 8
  | 3, _ => exact toNat_byteAt v 0

/-- A command that writes a field inside `M` (41_packer.md R130). -/
theorem putField_next (i : Instr) (a : Nat) (field : List Byte) (s : State) (h : a + field.length ≤ s.M.size.val) :
    putField i a field s = .next (withM s (s.M.writeBytes a field)) := by
  simp [putField, inRange, h]

/-- A command that writes a field outside `M` (41_packer.md R130). -/
theorem putField_bounds (i : Instr) (a : Nat) (field : List Byte) (s : State) (h : s.M.size.val < a + field.length) :
    putField i a field s = .next (s.erring 2 (encode i)) := by
  have : ¬ a + field.length ≤ s.M.size.val := by omega
  simp [putField, inRange, this, raise_eq, errCode]

/-! ### Everything a command can do -/

/-- What a command leaves when it raises no error: the effect of its rule alone. -/
def effect (i : Instr) (s : State) : State :=
  match i with
  | .nop => s
  | .li rd imm => writeX s rd (imm.setWidth 32)
  | .lih rd imm => writeX s rd (imm ++ (readX s rd).setWidth 16)
  | .csrr rd csr => writeX s rd (((csrOfNumber csr.toNat).map (csrValue s)).getD 0)
  | .csrw csr rs1 => ((csrOfNumber csr.toNat).bind (csrStore s (readX s rs1))).getD s
  | .clrerr => clearError s
  | .crcinit => ensureTable s
  | .crctab rd rs1 => writeX (ensureTable s) rd (tableAt (ensureTable s).T ((readX s rs1).setWidth 8))
  | .crc32 rd rs1 rs2 =>
    writeX (ensureTable s) rd (crc32Bytes (ensureTable s).T (s.M.readBytes (srcNat s rs1) (srcNat s rs2)))
  | .adlinit => withSums s adlerSeed
  | .adlupd rs1 rs2 => withSums s (adlerBytes (s.A, s.B) (s.M.readBytes (srcNat s rs1) (srcNat s rs2)))
  | .adlget rd => writeX s rd (s.B ++ s.A)
  | .put16le rs1 rs2 => withM s (s.M.writeBytes (srcNat s rs1) (le16 (readX s rs2)))
  | .put16be rs1 rs2 => withM s (s.M.writeBytes (srcNat s rs1) (be16 (readX s rs2)))
  | .put32be rs1 rs2 => withM s (s.M.writeBytes (srcNat s rs1) (be32 (readX s rs2)))
  | .palpack rd rs1 rs2 _ rs4 =>
    writeNat (withM s (palPack (srcNat s rs1) (srcNat s rs2) (srcNat s rs4) s.M)) rd (3 * srcNat s rs4)
  | .zframe rd rs1 rs2 rs3 rs4 =>
    let f := frameRows s.HIATTR s.BANK (srcNat s rs1) (srcNat s rs2) (srcNat s rs3) (srcNat s rs4) s.M
    writeNat (withSums (withM s (f.1.writeBytes (blockAddr (srcNat s rs1) (srcNat s rs3) (srcNat s rs4)) (zTrailer f.2))) f.2)
      rd (zLen (srcNat s rs3) (srcNat s rs4))
  | .chunk rd rs1 rs2 rs3 rs4 =>
    writeNat (withM (ensureTable s)
      (chunkBytes (ensureTable s).T (srcNat s rs1) (readX s rs2) (srcNat s rs3) (srcNat s rs4) s.M))
      rd (srcNat s rs1 + 12 + srcNat s rs4)

theorem boundsCode_one (s : State) (a n : Nat) : boundsCode s [(a, n)] = if inRange s a n then 0 else 2 := by
  simp [boundsCode, inRange]

theorem boundsCode_two (s : State) (a n b k : Nat) :
    boundsCode s [(a, n), (b, k)] = if inRange s a n then (if inRange s b k then 0 else 2) else 2 := by
  by_cases h : a + n ≤ s.M.size.val <;> by_cases h' : b + k ≤ s.M.size.val <;> simp [boundsCode, inRange, h, h']

/-- Every command takes a next state: its effect when its error condition does not hold, else the error record and nothing
else (60_exceptions.md R201, R203, R205). -/
theorem exec_eq (i : Instr) (s : State) :
    exec i s = .next (if errorCode s i = 0 then effect i s else s.erring (BitVec.ofNat 8 (errorCode s i)) (encode i)) := by
  cases i with
  | csrr rd csr =>
    simp only [exec, execCsrr, errorCode, effect]
    by_cases h : csr.toNat < 4
    · obtain ⟨k, hk⟩ : ∃ k, csrOfNumber csr.toNat = some k := by
        unfold csrOfNumber
        split_ifs <;> first | exact ⟨_, rfl⟩ | omega
      simp [hk, Nat.not_le_of_lt h]
    · have hk : csrOfNumber csr.toNat = none := by
        unfold csrOfNumber
        rw [if_neg (by omega), if_neg (by omega), if_neg (by omega), if_neg (by omega)]
      simp [hk, Nat.le_of_not_lt h, raise_eq, errCode]
  | csrw csr rs1 =>
    simp only [exec, execCsrw, errorCode, effect]
    by_cases h1 : csr.toNat = 1
    · simp [csrOfNumber, csrStore, h1]
    · by_cases h2 : csr.toNat = 2
      · simp [csrOfNumber, csrStore, h2]
      · have hk : (csrOfNumber csr.toNat).bind (csrStore s (readX s rs1)) = none := by
          unfold csrOfNumber
          split_ifs <;> rfl
        simp [hk, show csr.toNat = 0 ∨ csr.toNat = 3 ∨ 4 ≤ csr.toNat by omega, raise_eq, errCode]
  | crc32 rd rs1 rs2 =>
    simp only [exec, execCrc32, errorCode, effect, boundsCode_one, srcNat]
    by_cases h : inRange s (readX s rs1).toNat (readX s rs2).toNat = true <;> simp [h, raise_eq, errCode]
  | adlupd rs1 rs2 =>
    simp only [exec, execAdlupd, errorCode, effect, boundsCode_one, srcNat]
    by_cases h : inRange s (readX s rs1).toNat (readX s rs2).toNat = true <;> simp [h, raise_eq, errCode]
  | put16le rs1 rs2 =>
    simp only [exec, execPut16le, putField, errorCode, effect, boundsCode_one, srcNat, length_le16]
    by_cases h : inRange s (readX s rs1).toNat 2 = true <;> simp [h, raise_eq, errCode]
  | put16be rs1 rs2 =>
    simp only [exec, execPut16be, putField, errorCode, effect, boundsCode_one, srcNat, length_be16]
    by_cases h : inRange s (readX s rs1).toNat 2 = true <;> simp [h, raise_eq, errCode]
  | put32be rs1 rs2 =>
    simp only [exec, execPut32be, putField, errorCode, effect, boundsCode_one, srcNat, length_be32]
    by_cases h : inRange s (readX s rs1).toNat 4 = true <;> simp [h, raise_eq, errCode]
  | palpack rd rs1 rs2 rs3 rs4 =>
    simp only [exec, execPalpack, errorCode, effect, boundsCode_two, srcNat, palMax]
    by_cases h1 : (readX s rs3).toNat % 4 = 0
    · by_cases h2 : 256 < (readX s rs4).toNat
      · simp [h1, h2, raise_eq, errCode]
      · by_cases h3 : (readX s rs3).toNat < 4 * (readX s rs4).toNat
        · simp [h1, h2, h3, show (readX s rs3).toNat < (readX s rs4).toNat * 4 by omega, raise_eq, errCode]
        · by_cases p : inRange s (readX s rs2).toNat (readX s rs3).toNat = true <;>
            by_cases q : inRange s (readX s rs1).toNat (3 * (readX s rs4).toNat) = true <;>
            simp [h1, h2, h3, p, q, show ¬ (readX s rs3).toNat < (readX s rs4).toNat * 4 by omega, raise_eq, errCode]
    · simp [h1, raise_eq, errCode]
  | zframe rd rs1 rs2 rs3 rs4 =>
    simp only [exec, execZframe, errorCode, effect, boundsCode_two, srcNat, widthMax, zLen]
    by_cases h1 : 65535 < (readX s rs3).toNat
    · simp [h1, raise_eq, errCode]
    · by_cases h2 : s.HIATTR = true ∧ s.BANK = 0
      · simp [h1, h2, raise_eq, errCode]
      · have h2' : (s.HIATTR && s.BANK == 0) = false := by simpa [← Bool.not_eq_true] using h2
        by_cases p : inRange s (readX s rs1).toNat (6 + (readX s rs4).toNat * ((readX s rs3).toNat + 6)) = true <;>
          by_cases q : inRange s (readX s rs2).toNat ((readX s rs3).toNat * (readX s rs4).toNat) = true <;>
          simp only [h1, h2, h2', p, q, raise_eq, errCode] <;> rfl
  | chunk rd rs1 rs2 rs3 rs4 =>
    simp only [exec, execChunk, errorCode, effect, boundsCode_two, srcNat]
    by_cases p : inRange s (readX s rs1).toNat (12 + (readX s rs4).toNat) = true <;>
      by_cases q : inRange s (readX s rs3).toNat (readX s rs4).toNat = true <;> simp [p, q, raise_eq, errCode]
  | _ => rfl

end Sys2Proof.Machine
end

