-- ==== Sys2Proof/Laws/Effect.lean ====
section
/-! SUPPORT. Which parts of the state the effect of each command leaves alone, and what it keeps true of the others. -/

namespace Sys2Proof.Machine

@[simp] theorem writeNat_x (s : State) (i : Reg) (v : Nat) : (writeNat s i v).x = s.x.set i.toNat (BitVec.ofNat 32 v) := rfl
@[simp] theorem writeNat_M (s : State) (i : Reg) (v : Nat) : (writeNat s i v).M = s.M := rfl
@[simp] theorem writeNat_T (s : State) (i : Reg) (v : Nat) : (writeNat s i v).T = s.T := rfl
@[simp] theorem writeNat_TV (s : State) (i : Reg) (v : Nat) : (writeNat s i v).TV = s.TV := rfl
@[simp] theorem writeNat_A (s : State) (i : Reg) (v : Nat) : (writeNat s i v).A = s.A := rfl
@[simp] theorem writeNat_B (s : State) (i : Reg) (v : Nat) : (writeNat s i v).B = s.B := rfl
@[simp] theorem writeNat_HIATTR (s : State) (i : Reg) (v : Nat) : (writeNat s i v).HIATTR = s.HIATTR := rfl
@[simp] theorem writeNat_BANK (s : State) (i : Reg) (v : Nat) : (writeNat s i v).BANK = s.BANK := rfl
@[simp] theorem writeNat_ERR (s : State) (i : Reg) (v : Nat) : (writeNat s i v).ERR = s.ERR := rfl
@[simp] theorem writeNat_ERRINFO (s : State) (i : Reg) (v : Nat) : (writeNat s i v).ERRINFO = s.ERRINFO := rfl
@[simp] theorem writeNat_pending (s : State) (i : Reg) (v : Nat) : (writeNat s i v).pending = s.pending := rfl
@[simp] theorem writeNat_answers (s : State) (i : Reg) (v : Nat) : (writeNat s i v).answers = s.answers := rfl

/-- The effect of `CSRW`: one configuration element, or nothing (46_control.md R194). -/
theorem effect_csrw (csr : Half) (rs1 : Reg) (s : State) :
    effect (.csrw csr rs1) s = if csr.toNat = 1 then { s with HIATTR := cfgBit (readX s rs1) }
      else if csr.toNat = 2 then { s with BANK := readX s rs1 } else s := by
  by_cases h1 : csr.toNat = 1
  · simp [effect, csrOfNumber, csrStore, h1]
  · by_cases h2 : csr.toNat = 2
    · simp [effect, csrOfNumber, csrStore, h2]
    · rw [if_neg h1, if_neg h2]
      simp only [effect, csrOfNumber]
      split_ifs <;> first | contradiction | rfl

@[simp] theorem effect_pending (i : Instr) (s : State) : (effect i s).pending = s.pending := by
  cases i with
  | csrw csr rs1 => rw [effect_csrw]; split_ifs <;> rfl
  | _ => simp [effect]

@[simp] theorem effect_answers (i : Instr) (s : State) : (effect i s).answers = s.answers := by
  cases i with
  | csrw csr rs1 => rw [effect_csrw]; split_ifs <;> rfl
  | _ => simp [effect]

/-- No effect records an error; only `CLRERR` changes the record at all. -/
theorem effect_record (i : Instr) (s : State) :
    (effect i s).ERR = s.ERR ∧ (effect i s).ERRINFO = s.ERRINFO ∨ (effect i s).ERR = 0 ∧ (effect i s).ERRINFO = 0 := by
  cases i with
  | csrw csr rs1 => rw [effect_csrw]; split_ifs <;> exact .inl ⟨rfl, rfl⟩
  | clrerr => exact .inr ⟨rfl, rfl⟩
  | _ => simp [effect]

theorem effect_ERR (i : Instr) {s : State} (h : s.ERR = 0) : (effect i s).ERR = 0 := by
  rcases effect_record i s with ⟨h', -⟩ | ⟨h', -⟩
  · exact h'.trans h
  · exact h'

/-- Only `CSRW` writes the configuration (10_state.md R28, R29). -/
theorem effect_config (i : Instr) (s : State) (h : ∀ csr r, i ≠ .csrw csr r) :
    (effect i s).HIATTR = s.HIATTR ∧ (effect i s).BANK = s.BANK := by
  cases i with
  | csrw csr rs1 => exact absurd rfl (h csr rs1)
  | _ => simp [effect]

/-- Only `ADLINIT`, `ADLUPD` and `ZFRAME` write the sums (10_state.md R33). -/
theorem effect_sums (i : Instr) (s : State) (h1 : i ≠ .adlinit) (h2 : ∀ p q, i ≠ .adlupd p q)
    (h3 : ∀ d p q r u, i ≠ .zframe d p q r u) : (effect i s).A = s.A ∧ (effect i s).B = s.B := by
  cases i with
  | csrw csr rs1 => rw [effect_csrw]; split_ifs <;> exact ⟨rfl, rfl⟩
  | adlinit => exact absurd rfl h1
  | adlupd p q => exact absurd rfl (h2 p q)
  | zframe d p q r u => exact absurd rfl (h3 d p q r u)
  | _ => simp [effect]

/-- The sums of `ZFRAME` (43_zframe.md R157). -/
theorem frameRows_sums (hiattr : Bool) (bank : Word) (dst src W H : Nat) (m : Memory) :
    (frameRows hiattr bank dst src W H m).2.1.toNat ≤ 65520 ∧ (frameRows hiattr bank dst src W H m).2.2.toNat ≤ 65520 := by
  rw [(frameRows_spec hiattr bank dst src W H m).2.2.2.2.1]
  exact adlerBytes_le (by decide) _

/-- The sums stay below the modulus (10_state.md R33). -/
theorem effect_sums_le (i : Instr) {s : State} (h : s.A.toNat ≤ 65520 ∧ s.B.toNat ≤ 65520) :
    (effect i s).A.toNat ≤ 65520 ∧ (effect i s).B.toNat ≤ 65520 := by
  cases i with
  | csrw csr rs1 => rw [effect_csrw]; split_ifs <;> exact h
  | adlinit => simp [effect, adlerSeed]
  | adlupd p q => exact adlerBytes_le (ab := (s.A, s.B)) h _
  | zframe d p q r u => exact frameRows_sums _ _ _ _ _ _ _
  | _ => simpa [effect] using h

/-- Table and valid bit: left alone, or what `EnsureTable` leaves, which only four commands call (10_state.md R34, R35). -/
theorem effect_table (i : Instr) (s : State) :
    (effect i s).T = s.T ∧ (effect i s).TV = s.TV ∨ (effect i s).T = (ensureTable s).T ∧ (effect i s).TV = true ∧
      (i = .crcinit ∨ (∃ d p, i = .crctab d p) ∨ (∃ d p q, i = .crc32 d p q) ∨ ∃ d p q r u, i = .chunk d p q r u) := by
  cases i with
  | csrw csr rs1 => rw [effect_csrw]; split_ifs <;> exact .inl ⟨rfl, rfl⟩
  | crcinit => exact .inr ⟨rfl, ensureTable_TV s, .inl rfl⟩
  | crctab d p => exact .inr ⟨rfl, ensureTable_TV s, .inr (.inl ⟨d, p, rfl⟩)⟩
  | crc32 d p q => exact .inr ⟨rfl, ensureTable_TV s, .inr (.inr (.inl ⟨d, p, q, rfl⟩))⟩
  | chunk d p q r u => exact .inr ⟨rfl, ensureTable_TV s, .inr (.inr (.inr ⟨d, p, q, r, u, rfl⟩))⟩
  | _ => simp [effect]

/-- The stream of `ZFRAME` stays in the region of R154. -/
theorem frame_within (hiattr : Bool) (bank : Word) (dst src W H : Nat) (m : Memory) :
    m.Within ((frameRows hiattr bank dst src W H m).1.writeBytes (blockAddr dst W H)
      (zTrailer (frameRows hiattr bank dst src W H m).2)) dst (6 + H * (W + 6)) := by
  have hb : blockAddr dst W H = dst + 2 + H * (W + 6) := rfl
  exact ((frameRows_spec hiattr bank dst src W H m).1.mono (by omega) (by omega)).trans
    ((Memory.within_writeBytes _ _ _).mono (by omega) (by simp; omega))

/-- The region of `M` that a command may write: its address and its length (20_memory.md R55). -/
def writeRegion (i : Instr) (s : State) : Nat × Nat :=
  match i with
  | .put16le rs1 _ => (srcNat s rs1, 2)
  | .put16be rs1 _ => (srcNat s rs1, 2)
  | .put32be rs1 _ => (srcNat s rs1, 4)
  | .palpack _ rs1 _ _ rs4 => (srcNat s rs1, 3 * srcNat s rs4)
  | .zframe _ rs1 _ rs3 rs4 => (srcNat s rs1, 6 + srcNat s rs4 * (srcNat s rs3 + 6))
  | .chunk _ rs1 _ _ rs4 => (srcNat s rs1, 12 + srcNat s rs4)
  | _ => (0, 0)

/-- No command writes a byte of `M` outside its region. -/
theorem effect_within (i : Instr) (s : State) : s.M.Within (effect i s).M (writeRegion i s).1 (writeRegion i s).2 := by
  cases i with
  | csrw csr rs1 => rw [effect_csrw]; split_ifs <;> exact .refl _ _ _
  | put16le rs1 rs2 => exact s.M.within_writeBytes _ _
  | put16be rs1 rs2 => exact s.M.within_writeBytes _ _
  | put32be rs1 rs2 => exact s.M.within_writeBytes _ _
  | palpack rd rs1 rs2 rs3 rs4 => exact palPack_within _ _ _ _
  | zframe rd rs1 rs2 rs3 rs4 => exact frame_within _ _ _ _ _ _ _
  | chunk rd rs1 rs2 rs3 rs4 => exact chunkBytes_within _ _ _ _ _ _
  | _ => simpa [effect] using Memory.Within.refl _ _ _

/-- A command that raises no error writes inside `M`. -/
theorem writeRegion_le (i : Instr) {s : State} (h : errorCode s i = 0) :
    (writeRegion i s).1 + (writeRegion i s).2 ≤ s.M.size.val := by
  cases i <;> simp only [errorCode, boundsCode_one, boundsCode_two] at h <;>
    first
      | exact Nat.zero_le _
      | (split_ifs at h; exact (inRange_iff s _ _).mp (by assumption))

/-- Only the six writers change `M` (10_state.md R30). -/
theorem effect_M_eq (i : Instr) (s : State)
    (h1 : ∀ p q, i ≠ .put16le p q ∧ i ≠ .put16be p q ∧ i ≠ .put32be p q)
    (h2 : ∀ d p q r u, i ≠ .palpack d p q r u ∧ i ≠ .zframe d p q r u ∧ i ≠ .chunk d p q r u) :
    (effect i s).M = s.M := by
  cases i with
  | csrw csr rs1 => rw [effect_csrw]; split_ifs <;> rfl
  | put16le p q => exact absurd rfl (h1 p q).1
  | put16be p q => exact absurd rfl (h1 p q).2.1
  | put32be p q => exact absurd rfl (h1 p q).2.2
  | palpack d p q r u => exact absurd rfl (h2 d p q r u).1
  | zframe d p q r u => exact absurd rfl (h2 d p q r u).2.1
  | chunk d p q r u => exact absurd rfl (h2 d p q r u).2.2
  | _ => simp [effect]

/-- A command writes at most the register its `rd` field names (10_state.md R22). -/
theorem effect_readX (i : Instr) (s : State) {r : Reg} (h : destOf i ≠ some r) : readX (effect i s) r = readX s r := by
  have ne : ∀ {rd : Reg}, some rd ≠ some r → r ≠ rd := fun h e => h (by rw [e])
  cases i with
  | csrw csr rs1 => rw [effect_csrw]; split_ifs <;> rfl
  | li rd imm => exact readX_writeX_other _ _ _ _ (ne h)
  | lih rd imm => exact readX_writeX_other _ _ _ _ (ne h)
  | csrr rd csr => exact readX_writeX_other _ _ _ _ (ne h)
  | adlget rd => exact readX_writeX_other _ _ _ _ (ne h)
  | crctab rd rs1 => exact (readX_writeX_other _ _ _ _ (ne h)).trans (by simp)
  | crc32 rd rs1 rs2 => exact (readX_writeX_other _ _ _ _ (ne h)).trans (by simp)
  | palpack rd rs1 rs2 rs3 rs4 => exact readX_writeX_other _ _ _ _ (ne h)
  | zframe rd rs1 rs2 rs3 rs4 => exact readX_writeX_other _ _ _ _ (ne h)
  | chunk rd rs1 rs2 rs3 rs4 => exact (readX_writeX_other _ _ _ _ (ne h)).trans (by simp)
  | _ => simp [effect]

theorem errorCode_le (i : Instr) (s : State) : errorCode s i ≤ 7 := by
  cases i <;> simp only [errorCode, boundsCode_one, boundsCode_two] <;> (try split_ifs) <;> decide

/-- What a command does to the parts that only the host or another command may change: a command that raises changes the
error record only, one that does not has its effect only. -/
theorem exec_cases {i : Instr} {s t : State} (h : exec i s = .next t) :
    errorCode s i = 0 ∧ t = effect i s ∨
      errorCode s i ≠ 0 ∧ t = s.erring (BitVec.ofNat 8 (errorCode s i)) (encode i) := by
  rw [exec_eq] at h
  cases h
  by_cases hc : errorCode s i = 0 <;> simp [hc]

end Sys2Proof.Machine
end

