-- ==== Sys2Proof/Laws/Run.lean ====
section
/-! SUPPORT. Runs: a step that performs a named action, and a run from its steps. -/

namespace Sys2Proof.Machine

theorem failStop_true {s : State} (h : s.ERR ≠ 0) : s.failStop = true := by simpa [State.failStop] using h

theorem failStop_false {s : State} (h : s.ERR = 0) : s.failStop = false := by simp [State.failStop, h]

/-- A step performs the head of the host's actions. -/
theorem step_cons {s : State} {h : HostAction} {rest : List HostAction} (hp : s.pending = h :: rest) :
    step s = perform h { s with pending := rest } := by simp [step, hostTurn, hp]

theorem step_nil {s : State} (hp : s.pending = []) : step s = .next s := by simp [step, hostTurn, hp]

/-- A command's word, issued outside fail-stop, is executed (30_encoding.md R81). -/
theorem issue_ok {s : State} {w : Word} {i : Instr} (hs : s.ERR = 0) (hd : decode w = .ok i) : issue w s = exec i s := by
  simp [issue, failStop_false hs, hd]

/-- A word that is no command, issued outside fail-stop, raises `IllegalCommand` (30_encoding.md R88, R89). -/
theorem issue_error {s : State} {w : Word} {e : DecodeError} (hs : s.ERR = 0) (hd : decode w = .error e) :
    issue w s = .next (s.erring 1 w) := by
  simp [issue, failStop_false hs, hd, raise_eq, errCode]

/-- Everything an issued word can do: a command with its effect or its error, an illegal word, or a word that fail-stop
ignores (30_encoding.md R81, 60_exceptions.md R206). -/
theorem issue_cases {w : Word} {s t : State} (h : issue w s = .next t) :
    (∃ i, decode w = .ok i ∧ (s.ERR = 0 ∨ i = .clrerr) ∧ errorCode s i = 0 ∧ t = effect i s) ∨
    (∃ i, decode w = .ok i ∧ s.ERR = 0 ∧ errorCode s i ≠ 0 ∧
      t = s.erring (BitVec.ofNat 8 (errorCode s i)) (encode i)) ∨
    (∃ e, decode w = .error e ∧ s.ERR = 0 ∧ t = s.erring 1 w) ∨
    (s.ERR ≠ 0 ∧ decode w ≠ .ok .clrerr ∧ t = s) := by
  by_cases hs : s.ERR = 0
  · cases hd : decode w with
    | error e =>
      rw [issue_error hs hd] at h
      cases h
      exact .inr (.inr (.inl ⟨e, rfl, hs, rfl⟩))
    | ok i =>
      rw [issue_ok hs hd] at h
      rcases exec_cases h with ⟨hc, ht⟩ | ⟨hc, ht⟩
      · exact .inl ⟨i, rfl, .inl hs, hc, ht⟩
      · exact .inr (.inl ⟨i, rfl, hs, hc, ht⟩)
  · simp only [issue, failStop_true hs, if_true] at h
    split at h
    · rename_i hd
      cases h
      exact .inl ⟨.clrerr, hd, .inr rfl, rfl, rfl⟩
    · rename_i hd
      cases h
      exact .inr (.inr (.inr ⟨hs, hd, rfl⟩))

/-- Everything a step can do: nothing pending, or the first action and what it leaves (20_memory.md R62). -/
theorem step_cases {s t : State} (h : step s = .next t) :
    (s.pending = [] ∧ t = s) ∨ ∃ rest,
      (∃ w, s.pending = .issue w :: rest ∧ issue w { s with pending := rest } = .next t) ∨
      (∃ a b, s.pending = .writeMem a b :: rest ∧ a < s.M.size.val ∧ t = { s with pending := rest, M := s.M.write a b }) ∨
      (∃ r, t = { s with pending := rest, answers := s.answers ++ [r] }) ∨
      (s.pending = .reset :: rest ∧ t = resetBlock { s with pending := rest }) := by
  cases hp : s.pending with
  | nil => rw [step_nil hp] at h; cases h; exact .inl ⟨rfl, rfl⟩
  | cons a rest =>
    rw [step_cons hp] at h
    refine .inr ⟨rest, ?_⟩
    cases a with
    | issue w => exact .inl ⟨w, rfl, h⟩
    | writeMem a b =>
      simp only [perform, hostWriteMem] at h
      split at h <;> cases h
      rename_i ha
      exact .inr (.inl ⟨a, b, rfl, ha, rfl⟩)
    | readMem a =>
      simp only [perform, hostReadMem] at h
      split at h <;> cases h
      exact .inr (.inr (.inl ⟨_, rfl⟩))
    | readReg i => cases h; exact .inr (.inr (.inl ⟨_, rfl⟩))
    | readCsr k => cases h; exact .inr (.inr (.inl ⟨_, rfl⟩))
    | reset => cases h; exact .inr (.inr (.inr ⟨rfl, rfl⟩))

theorem run_zero (s : State) : Sys2Proof.core.run 0 s = .next s := rfl

theorem host_run_succ (M : Host.Core) {s t : M.State} (k : Nat) (h : M.step s = .next t) : M.run (k + 1) s = M.run k t := by
  rw [Host.Core.run, h]

/-- A run whose first step goes on is the rest of the run. -/
theorem run_succ {s t : State} (k : Nat) (h : step s = .next t) : Sys2Proof.core.run (k + 1) s = Sys2Proof.core.run k t :=
  host_run_succ Sys2Proof.core k h

end Sys2Proof.Machine
end

