-- ==== Sys2Proof/Laws/Program.lean ====
section
/-! SUPPORT. Lists of commands issued one after the other: their effects in turn are what the run leaves. -/

namespace Sys2Proof.Machine

/-- The effects of a list of commands, in order. -/
def effects : List Instr → State → State
  | [], s => s
  | i :: is, s => effects is (effect i s)

/-- No command of the list raises an error when the list is issued. -/
def noErrors : List Instr → State → Prop
  | [], _ => True
  | i :: is, s => errorCode s i = 0 ∧ noErrors is (effect i s)

theorem effects_append (is js : List Instr) (s : State) : effects (is ++ js) s = effects js (effects is s) := by
  induction is generalizing s with
  | nil => rfl
  | cons i is ih => exact ih (effect i s)

theorem noErrors_append (is js : List Instr) (s : State) :
    noErrors (is ++ js) s ↔ noErrors is s ∧ noErrors js (effects is s) := by
  induction is generalizing s with
  | nil => simp [noErrors, effects]
  | cons i is ih => simp [noErrors, effects, ih, and_assoc]

/-- The host's list takes no part in an effect. -/
theorem effect_with_pending (i : Instr) (s : State) (p : List HostAction) :
    effect i { s with pending := p } = { effect i s with pending := p } := by
  have eT : ensureTable { s with pending := p } = { ensureTable s with pending := p } := by
    unfold ensureTable; split <;> rfl
  have eC : csrValue { s with pending := p } = csrValue s := by funext k; cases k <;> rfl
  cases i with
  | csrw csr rs1 => rw [effect_csrw, effect_csrw]; split_ifs <;> rfl
  | csrr rd csr => simp only [effect, eC]; rfl
  | crcinit => exact eT
  | crctab rd rs1 => simp only [effect, eT]; rfl
  | crc32 rd rs1 rs2 => simp only [effect, eT]; rfl
  | chunk rd rs1 rs2 rs3 rs4 => simp only [effect, eT]; rfl
  | _ => rfl

theorem effects_with_pending (is : List Instr) (s : State) (p : List HostAction) :
    effects is { s with pending := p } = { effects is s with pending := p } := by
  induction is generalizing s with
  | nil => rfl
  | cons i is ih => rw [effects, effects, effect_with_pending, ih]

theorem errorCode_with_pending (i : Instr) (s : State) (p : List HostAction) :
    errorCode { s with pending := p } i = errorCode s i := by cases i <;> rfl

/-- Issuing a list of commands none of which raises an error runs their effects (30_encoding.md R93). -/
theorem run_issueAll (hde : ∀ i : Instr, decode (encode i) = .ok i) (is : List Instr) (rest : List HostAction) :
    ∀ s : State, s.ERR = 0 → s.pending = issueAll is ++ rest → noErrors is s →
      Sys2Proof.core.run is.length s = .next { effects is s with pending := rest } := by
  induction is with
  | nil => intro s _ hp _; simp only [issueAll, List.map_nil, List.nil_append] at hp; subst hp; rfl
  | cons i is ih =>
    intro s hs hp hn
    have hstep : step s = .next { effect i s with pending := issueAll is ++ rest } := by
      rw [step_cons (h := .issue (encode i)) (rest := issueAll is ++ rest) hp]
      show issue (encode i) _ = _
      rw [issue_ok (by exact hs) (hde i), exec_eq, errorCode_with_pending, if_pos hn.1, effect_with_pending]
    rw [List.length_cons, run_succ _ hstep, ih { effect i s with pending := issueAll is ++ rest } (effect_ERR i hs) rfl]
    · rw [effects, effects_with_pending]
    · have : ∀ (js : List Instr) (u : State) (p : List HostAction), noErrors js u → noErrors js { u with pending := p } := by
        intro js
        induction js with
        | nil => exact fun _ _ _ => trivial
        | cons j js ihj =>
          intro u p h
          exact ⟨(errorCode_with_pending j u p).trans h.1, by rw [effect_with_pending]; exact ihj _ p h.2⟩
      exact this is _ _ hn.2

/-- `LI32` loads its constant and does nothing else (30_encoding.md R95). -/
theorem effects_li32 (rd : Reg) (v : Word) (s : State) : effects (li32 rd v) s = writeX s rd v := by
  have h : (v >>> 16).setWidth 16 ++ ((v.setWidth 16).setWidth 32 : Word).setWidth 16 = v := by
    ext i hi; simp; grind
  show writeX (writeX s rd _) rd (_ ++ (readX (writeX s rd _) rd).setWidth 16) = _
  rw [readX_writeX_same, h]
  simp [writeX, Vector.set_set]

theorem noErrors_li32 (rd : Reg) (v : Word) (s : State) : noErrors (li32 rd v) s := ⟨rfl, rfl, trivial⟩

/-- `LI32` at the head of a list. -/
theorem effects_li32_append (rd : Reg) (v : Word) (is : List Instr) (s : State) :
    effects (li32 rd v ++ is) s = effects is (writeX s rd v) := by rw [effects_append, effects_li32]

theorem noErrors_li32_append (rd : Reg) (v : Word) (is : List Instr) (s : State) :
    noErrors (li32 rd v ++ is) s ↔ noErrors is (writeX s rd v) := by
  rw [noErrors_append, effects_li32]; simp [noErrors_li32]

end Sys2Proof.Machine
end

