-- ==== Sys2Proof/Laws/Png.lean ====
section
/-! SUPPORT. The regions that the writers leave, as byte lists: the packed palette, the zlib stream, a chunk. -/

namespace Sys2Proof.Machine

/-- Two memories that read alike on a region of one and a shifted region of the other give the same bytes. -/
theorem readBytes_shift {m m' : Memory} {a b n : Nat} (h : ∀ k, k < n → m.read (a + k) = m'.read (b + k)) :
    m.readBytes a n = m'.readBytes b n := by
  rw [Memory.readBytes_eq_map, Memory.readBytes_eq_map]
  exact List.map_congr_left (fun k hk => h k (List.mem_range.mp hk))

/-- A region read in equal pieces. -/
theorem readBytes_mul (m : Memory) (a w n : Nat) :
    m.readBytes a (n * w) = (List.range n).flatMap (fun i => m.readBytes (a + i * w) w) := by
  induction n with
  | zero => simp [Memory.readBytes]
  | succ n ih => rw [Nat.succ_mul, Memory.readBytes_add, ih, List.range_succ]; simp

theorem length_flatMap_const {α : Type} (l : List α) (f : α → List Byte) (w : Nat) (h : ∀ a ∈ l, (f a).length = w) :
    (l.flatMap f).length = l.length * w := by
  induction l with
  | nil => simp
  | cons a t ih =>
    rw [List.flatMap_cons, List.length_append, h a (by simp), ih (fun b hb => h b (by simp [hb])), List.length_cons]
    ring

theorem length_packedPalette (m : Memory) (src count : Nat) : (packedPalette m src count).length = 3 * count := by
  rw [packedPalette, length_flatMap_const _ _ 3 (by simp)]; simp; omega

theorem length_scanline (hiattr : Bool) (bank : Word) (m : Memory) (src W y : Nat) :
    (scanline hiattr bank m src W y).length = W + 1 := by simp [scanline]

theorem length_zlibStream (hiattr : Bool) (bank : Word) (m : Memory) (src W H : Nat) :
    (zlibStream hiattr bank m src W H).length = zLen W H := by
  rw [zlibStream, List.length_append, List.length_append,
    length_flatMap_const _ _ (W + 6) (fun y _ => by simp [length_scanline]; omega)]
  simp [zLen]; omega

theorem length_pngChunk (ty : Word) (payload : List Byte) : (pngChunk ty payload).length = 12 + payload.length := by
  simp [pngChunk]; omega

/-- `PALPACK` on disjoint regions leaves the packed palette. -/
theorem palPack_bytes {dst src count : Nat} (m : Memory) (hd : disjoint src (4 * count) dst (3 * count) ∨ dst = src) :
    (palPack dst src count m).readBytes dst (3 * count) = packedPalette m src count := by
  rw [Nat.mul_comm, readBytes_mul, packedPalette]
  refine congrArg List.flatten (List.map_congr_left (fun i hi => ?_))
  obtain ⟨h0, h1, h2⟩ := palPack_read m hd (List.mem_range.mp hi)
  rw [Nat.mul_comm i 3]
  exact congrArg₂ _ h0 (congrArg₂ _ h1 (congrArg (fun b => [b]) h2))

/-- `ZFRAME` on disjoint regions: the sums are those of the emitted rows. -/
theorem frame_sums {hiattr : Bool} {bank : Word} {dst src W H : Nat} (m : Memory)
    (hd : disjoint src (W * H) dst (6 + H * (W + 6))) :
    (frameRows hiattr bank dst src W H m).2 =
      adlerBytes (1, 0) ((List.range H).flatMap (scanline hiattr bank m src W)) := by
  obtain ⟨-, -, -, hrow, hs, -⟩ := frameRows_spec hiattr bank dst src W H m
  rw [hs, frameBytes]
  refine congrArg (adlerBytes (1, 0)) (congrArg List.flatten (List.map_congr_left (fun y hy => ?_)))
  have hy := List.mem_range.mp hy
  rw [Memory.readBytes, (hrow y hy).2, scanline, Memory.readBytes_eq_map]
  exact congrArg _ (List.map_congr_left (fun k hk => frameRows_pixel m hd hy (List.mem_range.mp hk)))

/-- `ZFRAME` on disjoint regions leaves the zlib stream. -/
theorem frame_bytes {hiattr : Bool} {bank : Word} {dst src W H : Nat} (m : Memory)
    (hd : disjoint src (W * H) dst (6 + H * (W + 6))) :
    ((frameRows hiattr bank dst src W H m).1.writeBytes (blockAddr dst W H)
      (zTrailer (frameRows hiattr bank dst src W H m).2)).readBytes dst (zLen W H) =
      zlibStream hiattr bank m src W H := by
  have hsum := frame_sums (hiattr := hiattr) (bank := bank) m hd
  have hpix := fun {y k} => frameRows_pixel (hiattr := hiattr) (bank := bank) m hd (y := y) (k := k)
  obtain ⟨-, h0, h1, hrow, -, -⟩ := frameRows_spec hiattr bank dst src W H m
  have hb : blockAddr dst W H = dst + 2 + H * (W + 6) := rfl
  have hw := (frameRows hiattr bank dst src W H m).1.within_writeBytes (blockAddr dst W H)
    (zTrailer (frameRows hiattr bank dst src W H m).2)
  have ht := (frameRows hiattr bank dst src W H m).1.readBytes_writeBytes (blockAddr dst W H)
    (zTrailer (frameRows hiattr bank dst src W H m).2)
  generalize hg : (frameRows hiattr bank dst src W H m) = g at *
  have e : zLen W H = 2 + H * (W + 6) + 4 := by unfold zLen; omega
  rw [e, Memory.readBytes_add, Memory.readBytes_add, zlibStream, ← hsum]
  refine congrArg₂ _ (congrArg₂ _ ?_ ?_) ?_
  · rw [hw.readBytes (by omega)]
    simp only [Memory.readBytes, h0, h1]; rfl
  · rw [hw.readBytes (by omega), readBytes_mul]
    refine congrArg List.flatten (List.map_congr_left (fun y hy => ?_))
    have hy := List.mem_range.mp hy
    obtain ⟨hh, hf⟩ := hrow y hy
    rw [show W + 6 = 5 + (W + 1) by omega, Memory.readBytes_add]
    have ea : dst + 2 + y * (5 + (W + 1)) = blockAddr dst W y := by
      rw [show 5 + (W + 1) = W + 6 by omega]; rfl
    rw [ea]
    refine congrArg₂ _ ?_ ?_
    · exact List.ext_getElem (by simp) (fun k hk _ => by
        rw [Memory.getElem_readBytes]; exact hh k (by simpa using hk))
    · rw [Memory.readBytes, hf, scanline, Memory.readBytes_eq_map]
      exact congrArg _ (List.map_congr_left (fun k hk => hpix hy (List.mem_range.mp hk)))
  · rw [← hb.trans (by omega : dst + 2 + H * (W + 6) = dst + (2 + H * (W + 6)))]
    exact ht

/-- `CHUNK` on disjoint regions leaves the chunk of the payload that stood at the source. -/
theorem chunk_bytes {dst src n : Nat} (ty : Word) (m : Memory) (hd : disjoint src n dst (12 + n)) :
    (chunkBytes crcTable dst ty src n m).readBytes dst (12 + n) = pngChunk ty (m.readBytes src n) := by
  have hbody : ∀ b, b < dst + 8 + n → (chunkBytes crcTable dst ty src n m).read b = (chunkBody dst ty src n m).read b :=
    fun b hb => chunkBytes_read_body crcTable dst ty src n m hb
  have hlen : (chunkBytes crcTable dst ty src n m).readBytes dst 4 = be32 (BitVec.ofNat 32 n) :=
    List.ext_getElem (by simp) (fun k hk _ => by
      have hk : k < 4 := by simpa using hk
      rw [Memory.getElem_readBytes, hbody _ (by omega)]
      exact (chunkBody_head dst ty src n m hk).1)
  have hty : (chunkBytes crcTable dst ty src n m).readBytes (dst + 4) 4 = be32 ty :=
    List.ext_getElem (by simp) (fun k hk _ => by
      have hk : k < 4 := by simpa using hk
      rw [Memory.getElem_readBytes, hbody _ (by omega)]
      exact (chunkBody_head dst ty src n m hk).2)
  have hpay : (chunkBytes crcTable dst ty src n m).readBytes (dst + 8) n = m.readBytes src n :=
    readBytes_shift (fun k hk => chunkBytes_payload crcTable ty m hd hk)
  have hcrc := chunkBytes_crc crcTable dst ty src n m
  rw [Memory.readBytes_add, hty, show dst + 4 + 4 = dst + 8 from rfl, hpay, crc32Bytes_eq_serial] at hcrc
  rw [show 12 + n = 4 + 4 + n + 4 by omega, Memory.readBytes_add, Memory.readBytes_add, Memory.readBytes_add, hlen, hty,
    show dst + (4 + 4) = dst + 8 from rfl, hpay, show dst + (4 + 4 + n) = dst + 8 + n by omega, hcrc, pngChunk]
  simp

end Sys2Proof.Machine
end

