-- ==== Sys2Proof/Laws/Encode.lean ====
section
/-! SUPPORT. The five steps of `ENCODE` (45_encode_sequence.md R181): each raises no error and leaves these
registers and this memory. -/

namespace Sys2Proof.Machine

/-- Memory after step 3: the signature. -/
def signatureMem (m : Memory) (a : Nat) : Memory :=
  (m.writeBytes a (be32 0x89504E47)).writeBytes (a + 4) (be32 0x0D0A1A0A)

/-- Memory after step 4: the staged IHDR payload. -/
def headerMem (m : Memory) (a : Nat) (w h : Word) : Memory :=
  (((m.writeBytes a (be32 w)).writeBytes (a + 4) (be32 h)).writeBytes (a + 8) (be32 0x08030000)).writeBytes
      (a + 11) (be16 0)

/-- Memory after step 5: the four chunks from `o` on, their payloads of 13, `n`, `z` and 0 bytes in scratch at
    `scr`. -/
def chunksMem (o scr n z : Nat) (m : Memory) : Memory :=
  let ihdr := chunkBytes crcTable o tagIHDR scr 13 m
  let plte := chunkBytes crcTable (o + 12 + 13) tagPLTE (scr + 16) n ihdr
  let idat := chunkBytes crcTable (o + 12 + 13 + 12 + n) tagIDAT (scr + 784) z plte
  chunkBytes crcTable (o + 12 + 13 + 12 + n + 12 + z) tagIEND scr 0 idat

theorem signatureMem_within (m : Memory) (a : Nat) : m.Within (signatureMem m a) a 8 :=
  ((m.within_writeBytes _ _).mono (by omega) (by simp)).trans
      ((Memory.within_writeBytes _ _ _).mono (by omega) (by simp))

theorem headerMem_within (m : Memory) (a : Nat) (w h : Word) : m.Within (headerMem m a w h) a 13 :=
  ((((m.within_writeBytes _ _).mono (by omega) (by simp)).trans
    ((Memory.within_writeBytes _ _ _).mono (by omega) (by simp))).trans
    ((Memory.within_writeBytes _ _ _).mono (by omega) (by simp))).trans
    ((Memory.within_writeBytes _ _ _).mono (by omega) (by simp))

/-- A register after a write: the value in that register, every other as before. -/
theorem readX_writeX (s : State) (i j : Reg) (v : Word) : readX (writeX s i v) j = if j = i then v else readX s j
    := by
  split
  · rename_i h; rw [h, readX_writeX_same]
  · rename_i h; rw [readX_writeX_other _ _ _ _ h]

/-- The same for a number. -/
theorem readX_writeNat (s : State) (i j : Reg) (v : Nat) : readX (writeNat s i v) j = if j = i then BitVec.ofNat 32
    v else readX s j := readX_writeX _ _ _ _

/-- No `Bounds` when every region lies in `M`. -/
theorem boundsCode_zero {s : State} {regions} (h : ∀ r ∈ regions, r.1 + r.2 ≤ s.M.size.val) : boundsCode s regions
    = 0 := by
  unfold boundsCode; rw [if_pos]; simpa using h

/-- Step 1 of `ENCODE`: it raises nothing, packs the palette and changes `x1` to `x4` and `x9`
    (45_encode_sequence.md R181). -/
theorem encodePalette_spec (s : State) (e : EncodeArgs) (hr : EncodeReady s e) (hscr : e.SCR.toNat + 784 < 2 ^ 32) :
    noErrors (encodePalette e) s ∧
    let t := effects (encodePalette e) s
    t = { s with x := t.x, M := palPack (e.SCR.toNat + 16) e.PAL.toNat e.COUNT.toNat s.M } ∧
    readX t 1 = e.SCR + 16 ∧ readX t 2 = e.PAL ∧ readX t 3 = e.PALLEN ∧ readX t 4 = e.COUNT ∧ readX t 9 =
        BitVec.ofNat 32 (3 * e.COUNT.toNat) ∧
    (∀ r, r ≠ 1 → r ≠ 2 → r ≠ 3 → r ≠ 4 → r ≠ 9 → readX t r = readX s r) := by
  have hs : (e.SCR + 16).toNat = e.SCR.toNat + 16 := by rw [BitVec.toNat_add]; show (_ + 16) % _ = _; omega
  have h1 := hr.scr_in; have h2 := hr.pal_in; have h3 := hr.palette; have h4 := hr.count; have h5 := hr.fit
  unfold encodeScratch at h1
  unfold encodePalette
  generalize e.SCR + 16 = q at *
  simp only [List.append_assoc, noErrors_li32_append, effects_li32_append]
  constructor
  · refine ⟨?_, trivial⟩
    simp only [errorCode, readX_writeX]
    simp only [reduceIte, BitVec.reduceEq, hs]
    rw [if_neg (by omega), if_neg (by omega), if_neg (by omega), boundsCode_zero]
    simp only [List.mem_cons, List.not_mem_nil, or_false, forall_eq_or_imp, forall_eq]
    exact ⟨h2, by show _ ≤ s.M.size.val; omega⟩
  · simp only [effects, effect, srcNat, readX_writeX, reduceIte, BitVec.reduceEq, hs, readX_writeNat, readX_withM]
    refine ⟨rfl, trivial, trivial, trivial, trivial, trivial, fun r a b c d f => ?_⟩
    rw [if_neg f, if_neg d, if_neg c, if_neg b, if_neg a]

/-- Step 2 of `ENCODE`: it raises nothing, frames the rows and changes `x5` to `x8` and `x10` (R181). -/
theorem encodeRows_spec (s : State) (e : EncodeArgs) (hscr : e.SCR.toNat + 784 < 2 ^ 32) (h1 : e.W.toNat ≤ 65535)
    (h2 : ¬ (s.HIATTR = true ∧ s.BANK = 0))
    (h3 : e.SCR.toNat + 784 + (6 + e.H.toNat * (e.W.toNat + 6)) ≤ s.M.size.val)
        (h4 : e.PIX.toNat + e.W.toNat * e.H.toNat ≤ s.M.size.val) :
    noErrors (encodeRows e) s ∧
    let t := effects (encodeRows e) s
    let f := frameRows s.HIATTR s.BANK (e.SCR.toNat + 784) e.PIX.toNat e.W.toNat e.H.toNat s.M
    t = { s with x := t.x, M := f.1.writeBytes (blockAddr (e.SCR.toNat + 784) e.W.toNat e.H.toNat) (zTrailer f.2), A := f.2.1, B := f.2.2 } ∧
    readX t 5 = e.SCR + 784 ∧ readX t 6 = e.PIX ∧ readX t 7 = e.W ∧ readX t 8 = e.H ∧ readX t 10 = BitVec.ofNat 32
        (zLen e.W.toNat e.H.toNat) ∧
    (∀ r, r ≠ 5 → r ≠ 6 → r ≠ 7 → r ≠ 8 → r ≠ 10 → readX t r = readX s r) := by
  have hs : (e.SCR + 784).toNat = e.SCR.toNat + 784 := by rw [BitVec.toNat_add]; show (_ + 784) % _ = _; omega
  unfold encodeRows
  generalize e.SCR + 784 = q at *
  simp only [List.append_assoc, noErrors_li32_append, effects_li32_append]
  constructor
  · refine ⟨?_, trivial⟩
    simp only [errorCode, readX_writeX]
    simp only [reduceIte, BitVec.reduceEq, hs]
    rw [if_neg (by omega), if_neg (by exact h2), boundsCode_zero]
    simp only [List.mem_cons, List.not_mem_nil, or_false, forall_eq_or_imp, forall_eq]
    exact ⟨h3, h4⟩
  · simp only [effects, effect, srcNat, readX_writeX, reduceIte, BitVec.reduceEq, hs, readX_writeNat, readX_withM,
      readX_withSums]
    refine ⟨rfl, trivial, trivial, trivial, trivial, trivial, fun r a b c d f => ?_⟩
    rw [if_neg f, if_neg d, if_neg c, if_neg b, if_neg a]

/-- Step 3 of `ENCODE`: it writes the signature through `x11` and `x12` (R181). -/
theorem encodeSignature_spec (s : State) (e : EncodeArgs) (ho : e.OUT.toNat + 8 < 2 ^ 32)
    (h : e.OUT.toNat + 8 ≤ s.M.size.val) :
    noErrors (encodeSignature e) s ∧
    let t := effects (encodeSignature e) s
    t = { s with x := t.x, M := signatureMem s.M e.OUT.toNat } ∧
    (∀ r, r ≠ 11 → r ≠ 12 → readX t r = readX s r) := by
  have hs : (e.OUT + 4).toNat = e.OUT.toNat + 4 := by rw [BitVec.toNat_add]; show (_ + 4) % _ = _; omega
  unfold encodeSignature
  generalize e.OUT + 4 = q at *
  simp only [List.append_assoc, noErrors_li32_append, effects_li32_append, List.cons_append, List.nil_append,
      noErrors, effects]
  simp only [effect, srcNat, readX_writeX, errorCode, reduceIte, BitVec.reduceEq, hs, readX_withM]
  refine ⟨⟨boundsCode_zero ?_, boundsCode_zero ?_, trivial⟩, rfl, fun r a b => ?_⟩
  · simp; omega
  · simp; omega
  · simp only [a, b, if_false]

/-- `PUT32BE` with its operands known. -/
theorem effect_put32be (s : State) (r1 r2 : Reg) (a : Nat) (v : Word) (h : (readX s r1).toNat = a)
    (h2 : readX s r2 = v) (hb : a + 4 ≤ s.M.size.val) :
    errorCode s (.put32be r1 r2) = 0 ∧ effect (.put32be r1 r2) s = withM s (s.M.writeBytes a (be32 v)) := by
  constructor
  · simp only [errorCode, h]; exact boundsCode_zero (by simp; omega)
  · simp only [effect, srcNat, h, h2]

/-- `PUT16BE` with its operands known. -/
theorem effect_put16be (s : State) (r1 r2 : Reg) (a : Nat) (v : Word) (h : (readX s r1).toNat = a)
    (h2 : readX s r2 = v) (hb : a + 2 ≤ s.M.size.val) :
    errorCode s (.put16be r1 r2) = 0 ∧ effect (.put16be r1 r2) s = withM s (s.M.writeBytes a (be16 v)) := by
  constructor
  · simp only [errorCode, h]; exact boundsCode_zero (by simp; omega)
  · simp only [effect, srcNat, h, h2]

/-- Step 4 of `ENCODE`: it stages the IHDR payload through `x11` and `x12` (R181, R182). -/
theorem encodeHeader_spec (s : State) (e : EncodeArgs) (ho : e.SCR.toNat + 784 < 2 ^ 32)
    (h : e.SCR.toNat + 16 ≤ s.M.size.val) (h7 : readX s 7 = e.W) (h8 : readX s 8 = e.H) :
    noErrors (encodeHeader e) s ∧
    let t := effects (encodeHeader e) s
    t = { s with x := t.x, M := headerMem s.M e.SCR.toNat e.W e.H } ∧
    (∀ r, r ≠ 11 → r ≠ 12 → readX t r = readX s r) := by
  have hs : (e.SCR + 4).toNat = e.SCR.toNat + 4 := by rw [BitVec.toNat_add]; show (_ + 4) % _ = _; omega
  have hs' : (e.SCR + 8).toNat = e.SCR.toNat + 8 := by rw [BitVec.toNat_add]; show (_ + 8) % _ = _; omega
  have hs'' : (e.SCR + 11).toNat = e.SCR.toNat + 11 := by rw [BitVec.toNat_add]; show (_ + 11) % _ = _; omega
  unfold encodeHeader
  generalize e.SCR + 4 = q at *
  generalize e.SCR + 8 = q8 at *
  generalize e.SCR + 11 = q11 at *
  simp only [List.append_assoc, noErrors_li32_append, effects_li32_append, List.cons_append, List.nil_append,
      noErrors, effects]
  obtain ⟨c1, f1⟩ := effect_put32be (writeX s 11 e.SCR) 11 7 e.SCR.toNat e.W (by rw [readX_writeX]; rfl)
      (by rw [readX_writeX]; exact h7) (by show _ ≤ s.M.size.val; omega)
  rw [c1, f1]
  generalize hA : writeX (withM _ _) 11 q = A
  have rA : ∀ j, readX A j = if j = 11 then q else readX s j := by
    intro j; rw [← hA]; simp only [readX_writeX, readX_withM]; split_ifs <;> rfl
  have eA : A = { s with x := A.x, M := s.M.writeBytes e.SCR.toNat (be32 e.W) } := by rw [← hA]; rfl
  have zA : A.M.size = s.M.size := by rw [eA]; simp
  obtain ⟨c2, f2⟩ := effect_put32be A 11 8 (e.SCR.toNat + 4) e.H
      (by rw [rA]; simp only [reduceIte]; exact hs)
      (by rw [rA]; simp only [reduceIte, BitVec.reduceEq]; exact h8) (by rw [zA]; omega)
  rw [c2, f2]
  generalize hB : writeX (writeX (withM _ _) 11 q8) 12 _ = B
  have rB : ∀ j, readX B j = if j = 12 then 0x08030000 else if j = 11 then q8 else readX A j := by
    intro j; rw [← hB, readX_writeX, readX_writeX, readX_withM]
  have eB : B =
      { s with x := B.x, M := (s.M.writeBytes e.SCR.toNat (be32 e.W)).writeBytes (e.SCR.toNat + 4) (be32 e.H) } :=
      by rw [← hB, eA]; rfl
  have zB : B.M.size = s.M.size := by rw [eB]; simp
  obtain ⟨c3, f3⟩ := effect_put32be B 11 12 (e.SCR.toNat + 8) 0x08030000
      (by rw [rB]; simp only [reduceIte, BitVec.reduceEq]; exact hs')
      (by rw [rB]; simp only [reduceIte, BitVec.reduceEq]) (by rw [zB]; omega)
  rw [c3, f3]
  generalize hC : writeX (writeX (withM _ _) 11 q11) 12 0 = C
  have rC : ∀ j, readX C j = if j = 12 then 0 else if j = 11 then q11 else readX B j := by
    intro j; rw [← hC, readX_writeX, readX_writeX, readX_withM]
  have eC : C =
      { s with x := C.x, M := ((s.M.writeBytes e.SCR.toNat (be32 e.W)).writeBytes (e.SCR.toNat + 4) (be32 e.H)).writeBytes (e.SCR.toNat + 8) (be32 0x08030000) } := by rw [← hC, eB]; rfl
  have zC : C.M.size = s.M.size := by rw [eC]; simp
  obtain ⟨c4, f4⟩ := effect_put16be C 11 12 (e.SCR.toNat + 11) 0
      (by rw [rC]; simp only [reduceIte, BitVec.reduceEq]; exact hs'')
      (by rw [rC]; simp only [reduceIte, BitVec.reduceEq]) (by rw [zC]; omega)
  rw [c4, f4]
  refine ⟨⟨rfl, rfl, rfl, rfl, trivial⟩, ?_, fun r a b => ?_⟩
  · rw [eC]; rfl
  · rw [readX_withM, rC, if_neg b, if_neg a, rB, if_neg b, if_neg a, rA, if_neg a]

/-- The state with a valid table. -/
def withTable (s : State) : State := { s with T := crcTable, TV := true }

theorem readX_withTable (s i) : readX (withTable s) i = readX s i := rfl

/-- The `CHUNK` of `ENCODE`, with its operands known, when a valid table is the right one. -/
theorem effect_chunk (s : State) (rs3 rs4 : Reg) (dst src n : Nat) (ty) (hT : s.TV = true → s.T = crcTable)
    (h1 : (readX s 11).toNat = dst) (h2 : readX s 12 = ty) (h3 : (readX s rs3).toNat = src)
  (h4 : (readX s rs4).toNat = n) (hd : dst + (12 + n) ≤ s.M.size.val) (hs : src + n ≤ s.M.size.val) :
  errorCode s (.chunk 11 11 12 rs3 rs4) = 0 ∧ effect (.chunk 11 11 12 rs3 rs4) s = writeNat
      (withM (withTable s) (chunkBytes crcTable dst ty src n s.M)) 11 (dst + 12 + n) := by
  constructor
  · simp only [errorCode, h1, h3, h4]; exact boundsCode_zero (by simp; omega)
  · simp only [effect, srcNat, h1, h3, h4, ensureTable_T s hT, h2]
    rw [ensureTable_eq s, ensureTable_T s hT]; rfl

/-- `CHUNK` keeps `MEMSIZE`. -/
theorem chunkBytes_size (T dst ty src n m) : (chunkBytes T dst ty src n m).size = m.size :=
    (chunkBytes_within T dst ty src n m).size

/-- A number below `2^32` as a word. -/
theorem toNat_ofNat32 (n : Nat) (h : n < 2 ^ 32) : (BitVec.ofNat 32 n).toNat = n := by rw [BitVec.toNat_ofNat,
    Nat.mod_eq_of_lt h]

/-- Step 5 of `ENCODE`: the four chunks, chained through `x11` (R181, R183). -/
theorem encodeChunks_spec (s : State) (e : EncodeArgs) (hT : s.TV = true → s.T = crcTable)
    (ho : e.OUT.toNat + 8 < 2 ^ 32) (hsz : e.OUT.toNat + encodeTotal e ≤ s.M.size.val)
    (hc : e.COUNT.toNat ≤ 256)
    (hscr : e.SCR.toNat + encodeScratch e ≤ s.M.size.val)
    (h1 : readX s 1 = e.SCR + 16) (h9 : readX s 9 = BitVec.ofNat 32 (3 * e.COUNT.toNat))
        (h5 : readX s 5 = e.SCR + 784) (h10 : readX s 10 = BitVec.ofNat 32 (zLen e.W.toNat e.H.toNat))
        (hscr' : e.SCR.toNat + 784 < 2 ^ 32) :
    noErrors (encodeChunks e) s ∧
    let t := effects (encodeChunks e) s
    t = { s with x := t.x, T := crcTable, TV := true, M := chunksMem (e.OUT.toNat + 8) e.SCR.toNat (3 * e.COUNT.toNat) (zLen e.W.toNat e.H.toNat) s.M } ∧
    (readX t 11).toNat = e.OUT.toNat + encodeTotal e ∧ readX t 12 = tagIEND ∧ readX t 13 = e.SCR ∧ readX t 14 = 0 ∧
    (∀ r, r ≠ 11 → r ≠ 12 → r ≠ 13 → r ≠ 14 → readX t r = readX s r) := by
  have hs : (e.OUT + 8).toNat = e.OUT.toNat + 8 := by rw [BitVec.toNat_add]; show (_ + 8) % _ = _; omega
  have hs16 : (e.SCR + 16).toNat = e.SCR.toNat + 16 := by rw [BitVec.toNat_add]; show (_ + 16) % _ = _; omega
  have hs784 : (e.SCR + 784).toNat = e.SCR.toNat + 784 := by rw [BitVec.toNat_add]; show (_ + 784) % _ = _; omega
  have hlt := s.M.size.isLt
  unfold encodeTotal encodeScratch at *
  unfold encodeChunks
  generalize e.OUT + 8 = q at *
  generalize e.SCR + 16 = q16 at *
  generalize e.SCR + 784 = q784 at *
  generalize zLen e.W.toNat e.H.toNat = z at *
  simp only [List.append_assoc, noErrors_li32_append, effects_li32_append, List.cons_append, List.nil_append,
      noErrors, effects]
  have hfin : e.OUT.toNat + 8 + 12 + 13 + 12 + 3 * e.COUNT.toNat + 12 + z + 12 + 0 < 2 ^ 32 := by omega
  have hfin' : e.OUT.toNat + 8 + 12 + 13 + 12 + 3 * e.COUNT.toNat + 12 + z + 12 + 0 = e.OUT.toNat +
      (69 + 3 * e.COUNT.toNat + z) := by omega
  generalize hA : writeX (writeX (writeX (writeX s 11 q) 12 tagIHDR) 13 e.SCR) 14 13 = A
  have rA : ∀ j, readX A j = if j = 14 then 13 else if j = 13 then e.SCR else if j = 12 then tagIHDR else if j = 11
      then q else readX s j := by
    intro j; rw [← hA]; simp only [readX_writeX]
  have eA : A = { s with x := A.x } := by rw [← hA]; rfl
  obtain ⟨c1, f1⟩ := effect_chunk A 13 14 (e.OUT.toNat + 8) e.SCR.toNat 13 tagIHDR (by rw [eA]; exact hT)
      (by rw [rA]; simp only [reduceIte, BitVec.reduceEq]; exact hs)
      (by rw [rA]; simp only [reduceIte, BitVec.reduceEq]) (by rw [rA]; simp only [reduceIte, BitVec.reduceEq])
      (by rw [rA]; simp only [reduceIte]; rfl) (by rw [eA]; show _ ≤ s.M.size.val; omega)
      (by rw [eA]; show _ ≤ s.M.size.val; omega)
  rw [f1, c1]
  generalize hB : writeX (writeNat _ 11 (e.OUT.toNat + 8 + 12 + 13)) 12 tagPLTE = B
  have rB : ∀ j, readX B j = if j = 12 then tagPLTE else if j = 11 then BitVec.ofNat 32 (e.OUT.toNat + 8 + 12 + 13)
      else readX A j := by
    intro j; rw [← hB, readX_writeX, readX_writeNat, readX_withM, readX_withTable]
  have eB : B =
      { s with x := B.x, T := crcTable, TV := true, M := chunkBytes crcTable (e.OUT.toNat + 8) tagIHDR e.SCR.toNat 13 s.M } := by rw [← hB, eA]; rfl
  have zB : B.M.size = s.M.size := by rw [eB]; exact chunkBytes_size _ _ _ _ _ _
  obtain ⟨c2, f2⟩ := effect_chunk B 1 9 (e.OUT.toNat + 8 + 12 + 13) (e.SCR.toNat + 16) (3 * e.COUNT.toNat) tagPLTE
      (by rw [eB]; exact fun _ => rfl)
      (by rw [rB]; simp only [reduceIte, BitVec.reduceEq]; exact toNat_ofNat32 _ (by omega))
      (by rw [rB]; simp only [reduceIte, BitVec.reduceEq])
      (by rw [rB, rA]; simp only [reduceIte, BitVec.reduceEq, h1]; exact hs16)
      (by rw [rB, rA]; simp only [reduceIte, BitVec.reduceEq, h9]; exact toNat_ofNat32 _ (by omega))
      (by rw [zB]; omega) (by rw [zB]; omega)
  rw [f2, c2]
  generalize hC : writeX (writeNat _ 11 (e.OUT.toNat + 8 + 12 + 13 + 12 + 3 * e.COUNT.toNat)) 12 tagIDAT = C
  have rC : ∀ j, readX C j = if j = 12 then tagIDAT else if j = 11 then BitVec.ofNat 32
      (e.OUT.toNat + 8 + 12 + 13 + 12 + 3 * e.COUNT.toNat) else readX B j := by
    intro j; rw [← hC, readX_writeX, readX_writeNat, readX_withM, readX_withTable]
  have eC : C =
      { s with x := C.x, T := crcTable, TV := true, M := chunkBytes crcTable (e.OUT.toNat + 8 + 12 + 13) tagPLTE (e.SCR.toNat + 16) (3 * e.COUNT.toNat) (chunkBytes crcTable (e.OUT.toNat + 8) tagIHDR e.SCR.toNat 13 s.M) } := by rw [← hC, eB]; rfl
  have zC : C.M.size = s.M.size := by rw [eC]; simp only [chunkBytes_size]
  obtain ⟨c3, f3⟩ := effect_chunk C 5 10 (e.OUT.toNat + 8 + 12 + 13 + 12 + 3 * e.COUNT.toNat) (e.SCR.toNat + 784) z
      tagIDAT (by rw [eC]; exact fun _ => rfl)
      (by rw [rC]; simp only [reduceIte, BitVec.reduceEq]; exact toNat_ofNat32 _ (by omega))
      (by rw [rC]; simp only [reduceIte, BitVec.reduceEq])
      (by rw [rC, rB, rA]; simp only [reduceIte, BitVec.reduceEq, h5]; exact hs784)
      (by rw [rC, rB, rA]; simp only [reduceIte, BitVec.reduceEq, h10]; exact toNat_ofNat32 _ (by omega))
      (by rw [zC]; omega) (by rw [zC]; omega)
  rw [f3, c3]
  generalize hD : writeX
      (writeX (writeNat _ 11 (e.OUT.toNat + 8 + 12 + 13 + 12 + 3 * e.COUNT.toNat + 12 + z)) 12 tagIEND) 14 0 = D
  have rD : ∀ j, readX D j = if j = 14 then 0 else if j = 12 then tagIEND else if j = 11 then BitVec.ofNat 32
      (e.OUT.toNat + 8 + 12 + 13 + 12 + 3 * e.COUNT.toNat + 12 + z) else readX C j := by
    intro j; rw [← hD, readX_writeX, readX_writeX, readX_writeNat, readX_withM, readX_withTable]
  have eD : D =
      { s with x := D.x, T := crcTable, TV := true, M := chunkBytes crcTable (e.OUT.toNat + 8 + 12 + 13 + 12 + 3 * e.COUNT.toNat) tagIDAT (e.SCR.toNat + 784) z (chunkBytes crcTable (e.OUT.toNat + 8 + 12 + 13) tagPLTE (e.SCR.toNat + 16) (3 * e.COUNT.toNat) (chunkBytes crcTable (e.OUT.toNat + 8) tagIHDR e.SCR.toNat 13 s.M)) } := by rw [← hD, eC]; rfl
  have zD : D.M.size = s.M.size := by rw [eD]; simp only [chunkBytes_size]
  obtain ⟨c4, f4⟩ := effect_chunk D 13 14 (e.OUT.toNat + 8 + 12 + 13 + 12 + 3 * e.COUNT.toNat + 12 + z) e.SCR.toNat
      0 tagIEND (by rw [eD]; exact fun _ => rfl)
      (by rw [rD]; simp only [reduceIte, BitVec.reduceEq]; exact toNat_ofNat32 _ (by omega))
      (by rw [rD]; simp only [reduceIte, BitVec.reduceEq])
      (by rw [rD, rC, rB, rA]; simp only [reduceIte, BitVec.reduceEq]) (by rw [rD]; simp only [reduceIte]; rfl)
      (by rw [zD]; omega) (by rw [zD]; omega)
  rw [f4, c4]
  refine ⟨⟨rfl, rfl, rfl, rfl, trivial⟩, ?_, ?_, ?_, ?_, ?_, ?_⟩
  · rw [eD]; rfl
  · exact
      ((congrArg BitVec.toNat ((readX_writeNat _ _ _ _).trans (if_pos rfl))).trans (toNat_ofNat32 _ hfin)).trans hfin'
  · rw [readX_writeNat, if_neg (by decide)]; rw [readX_withM, readX_withTable, rD]; simp only [reduceIte,
      BitVec.reduceEq]
  · rw [readX_writeNat, if_neg (by decide)]; rw [readX_withM, readX_withTable, rD, rC, rB, rA]; simp only
      [reduceIte, BitVec.reduceEq]
  · rw [readX_writeNat, if_neg (by decide)]; rw [readX_withM, readX_withTable, rD]; simp only [reduceIte,
      BitVec.reduceEq]
  · intro r a b c d
    rw [readX_writeNat, if_neg a]
    rw [readX_withM, readX_withTable, rD, if_neg d, if_neg b, if_neg a, rC, if_neg b, if_neg a, rB, if_neg b,
        if_neg a, rA, if_neg d, if_neg c, if_neg b, if_neg a]

/-- A row depends only on its pixels. -/
theorem scanline_congr {hi b} {m m' : Memory} {src W H y : Nat} (hy : y < H)
    (h : ∀ a, src ≤ a → a < src + W * H → m.read a = m'.read a) :
    scanline hi b m src W y = scanline hi b m' src W y := by
  unfold scanline
  congr 1
  refine List.map_congr_left (fun k hk => ?_)
  have hk := List.mem_range.mp hk
  have := Nat.mul_le_mul_right W (show y + 1 ≤ H from hy)
  rw [Nat.add_mul, Nat.mul_comm H] at this
  rw [h _ (by omega) (by omega)]

/-- All rows depend only on the pixel buffer. -/
theorem scanlines_congr {hi b} {m m' : Memory} {src W H : Nat}
    (h : ∀ a, src ≤ a → a < src + W * H → m.read a = m'.read a) :
    (List.range H).flatMap (scanline hi b m src W) = (List.range H).flatMap (scanline hi b m' src W) := by
  exact congrArg List.flatten (List.map_congr_left (fun y hy => scanline_congr (List.mem_range.mp hy) h))

/-- The zlib stream depends only on the pixel buffer. -/
theorem zlibStream_congr {hi b} {m m' : Memory} {src W H : Nat}
    (h : ∀ a, src ≤ a → a < src + W * H → m.read a = m'.read a) :
    zlibStream hi b m src W H = zlibStream hi b m' src W H := by
  unfold zlibStream
  rw [scanlines_congr h]
  congr 2
  exact congrArg List.flatten (List.map_congr_left (fun y hy => by rw [scanline_congr (List.mem_range.mp hy) h]))

/-- A field read back, its length given. -/
theorem readBytes_field (m : Memory) (a : Nat) (bs : List Byte) (n : Nat) (h : bs.length = n) :
    (m.writeBytes a bs).readBytes a n = bs := by
  subst h; exact m.readBytes_writeBytes a bs

/-- The signature that step 3 writes (R181). -/
theorem readBytes_signature (m : Memory) (a : Nat) : (signatureMem m a).readBytes a 8 = [0x89, 0x50, 0x4E, 0x47,
    0x0D, 0x0A, 0x1A, 0x0A] := by
  unfold signatureMem
  rw [Memory.readBytes_add _ a 4 4, (Memory.within_writeBytes _ (a + 4) (be32 0x0D0A1A0A)).readBytes (by omega),
      readBytes_field _ _ _ 4 rfl, readBytes_field _ _ _ 4 rfl]
  decide

/-- The IHDR payload that step 4 stages (R182). -/
theorem readBytes_header (m : Memory) (a : Nat) (w h : Word) : (headerMem m a w h).readBytes a 13 =
    be32 w ++ be32 h ++ [0x08, 0x03, 0x00, 0x00, 0x00] := by
  unfold headerMem
  have e1 : ∀ m : Memory, (m.writeBytes (a + 8) (be32 0x08030000)).readBytes (a + 8) 3 = [8, 3, 0] := fun m => by
    have := readBytes_field m (a + 8) (be32 0x08030000) 4 rfl
    rw [show 4 = 3 + 1 from rfl, Memory.readBytes_add] at this
    exact (List.append_inj_left this (by simp))
  rw [show 13 = 4 + 4 + 3 + 2 from rfl, Memory.readBytes_add, Memory.readBytes_add, Memory.readBytes_add]
  rw [(Memory.within_writeBytes _ (a + 11) (be16 0)).readBytes (b := a) (k := 4) (by omega),
      (Memory.within_writeBytes _ (a + 8) (be32 0x08030000)).readBytes (b := a) (k := 4) (by omega),
    (Memory.within_writeBytes _ (a + 4) (be32 h)).readBytes (b := a) (k := 4) (by omega), readBytes_field _ _ _ 4 rfl]
  rw [(Memory.within_writeBytes _ (a + 11) (be16 0)).readBytes (b := a + 4) (k := 4) (by omega),
      (Memory.within_writeBytes _ (a + 8) (be32 0x08030000)).readBytes (b := a + 4) (k := 4) (by omega),
    readBytes_field _ _ _ 4 rfl]
  rw [show a + (4 + 4) = a + 8 from rfl, show a + (4 + 4 + 3) = a + 11 from rfl,
    (Memory.within_writeBytes _ (a + 11) (be16 0)).readBytes (b := a + 8) (k := 3) (by omega), e1, readBytes_field
        _ _ _ 2 rfl]
  simp only [List.append_assoc]; rfl

end Sys2Proof.Machine
end

