-- ==== Sys2Proof/Laws/PerInstr.lean ====
section
/-! SUPPORT. Per command: its encoded word matches a row of the command table, and that row builds the command back. -/

namespace Sys2Proof.Laws

/-- The word of the command matches a row, and the row's command with the word's fields is the command. -/
def MatchesRow.Statement (i : Instr) : Prop :=
  ∃ r ∈ rows, encode i &&& r.mask = r.pattern ∧ r.build (encode i) = i

theorem and_word {w m p : Word} (h1 : opField w &&& opField m = opField p) (h2 : rdField w &&& rdField m = rdField p)
    (h3 : rs1Field w &&& rs1Field m = rs1Field p) (h4 : immField w &&& immField m = immField p) : w &&& m = p := by
  refine word_ext ?_ ?_ ?_ ?_
  · rw [opField, BitVec.extractLsb'_and]; exact h1
  · rw [rdField, BitVec.extractLsb'_and]; exact h2
  · rw [rs1Field, BitVec.extractLsb'_and]; exact h3
  · rw [immField, BitVec.extractLsb'_and]; exact h4

/-- The low half of a format R word. -/
theorem immField_formatR (op : Byte) (rd rs1 rs2 rs3 rs4 : Reg) :
    immField (formatR op rd rs1 rs2 rs3 rs4) = rs2 ++ rs3 ++ rs4 ++ (0 : Reg) := by
  ext i hi; simp [immField, formatR]; grind

/-- A low half with three zero operands has no bit in the mask of `z`, `rs4`, `rs3`. -/
@[simp] theorem half_and_three (r : Reg) : (r ++ 0#4 ++ 0#4 ++ 0#4 : Half) &&& 4095#16 = 0#16 := by
  revert r; decide

/-- A low half with a zero `z` has no bit in the mask of `z`. -/
@[simp] theorem half_and_one (p q r : Reg) : (p ++ q ++ r ++ 0#4 : Half) &&& 15#16 = 0#16 := by
  have h : (15#16 : Half) = (0#12 ++ 15#4 : BitVec 16) := rfl
  rw [h, BitVec.and_append]; simp

@[simp] theorem and_allOnes_reg (r : Reg) : r &&& 15#4 = r := BitVec.and_allOnes
@[simp] theorem and_allOnes_half (v : Half) : v &&& 65535#16 = v := BitVec.and_allOnes

theorem MatchesRow.nop : MatchesRow.Statement .nop := by
  refine ⟨rows[0], List.getElem_mem _, and_word ?_ ?_ ?_ ?_, ?_⟩ <;>
    simp [rows, encode, immField_formatR]
  all_goals simp [opField, rdField, rs1Field, immField]

theorem MatchesRow.li (rd : Reg) (imm : Half) : MatchesRow.Statement (.li rd imm) := by
  refine ⟨rows[1], List.getElem_mem _, and_word ?_ ?_ ?_ ?_, ?_⟩ <;>
    simp [rows, encode]
  all_goals simp [opField, rdField, rs1Field, immField]

theorem MatchesRow.lih (rd : Reg) (imm : Half) : MatchesRow.Statement (.lih rd imm) := by
  refine ⟨rows[2], List.getElem_mem _, and_word ?_ ?_ ?_ ?_, ?_⟩ <;>
    simp [rows, encode]
  all_goals simp [opField, rdField, rs1Field, immField]

theorem MatchesRow.csrr (rd : Reg) (csr : Half) : MatchesRow.Statement (.csrr rd csr) := by
  refine ⟨rows[3], List.getElem_mem _, and_word ?_ ?_ ?_ ?_, ?_⟩ <;>
    simp [rows, encode]
  all_goals simp [opField, rdField, rs1Field, immField]

theorem MatchesRow.csrw (csr : Half) (rs1 : Reg) : MatchesRow.Statement (.csrw csr rs1) := by
  refine ⟨rows[4], List.getElem_mem _, and_word ?_ ?_ ?_ ?_, ?_⟩ <;>
    simp [rows, encode]
  all_goals simp [opField, rdField, rs1Field, immField]

theorem MatchesRow.clrerr : MatchesRow.Statement .clrerr := by
  refine ⟨rows[5], List.getElem_mem _, and_word ?_ ?_ ?_ ?_, ?_⟩ <;>
    simp [rows, encode, immField_formatR]
  all_goals simp [opField, rdField, rs1Field, immField]

theorem MatchesRow.crcinit : MatchesRow.Statement .crcinit := by
  refine ⟨rows[6], List.getElem_mem _, and_word ?_ ?_ ?_ ?_, ?_⟩ <;>
    simp [rows, encode, immField_formatR]
  all_goals simp [opField, rdField, rs1Field, immField]

theorem MatchesRow.crctab (rd : Reg) (rs1 : Reg) : MatchesRow.Statement (.crctab rd rs1) := by
  refine ⟨rows[7], List.getElem_mem _, and_word ?_ ?_ ?_ ?_, ?_⟩ <;>
    simp [rows, encode, immField_formatR]
  all_goals simp [opField, rdField, rs1Field, immField]

theorem MatchesRow.crc32 (rd : Reg) (rs1 : Reg) (rs2 : Reg) : MatchesRow.Statement (.crc32 rd rs1 rs2) := by
  refine ⟨rows[8], List.getElem_mem _, and_word ?_ ?_ ?_ ?_, ?_⟩ <;>
    simp [rows, encode, immField_formatR]
  all_goals simp [opField, rdField, rs1Field, immField]

theorem MatchesRow.adlinit : MatchesRow.Statement .adlinit := by
  refine ⟨rows[9], List.getElem_mem _, and_word ?_ ?_ ?_ ?_, ?_⟩ <;>
    simp [rows, encode, immField_formatR]
  all_goals simp [opField, rdField, rs1Field, immField]

theorem MatchesRow.adlupd (rs1 : Reg) (rs2 : Reg) : MatchesRow.Statement (.adlupd rs1 rs2) := by
  refine ⟨rows[10], List.getElem_mem _, and_word ?_ ?_ ?_ ?_, ?_⟩ <;>
    simp [rows, encode, immField_formatR]
  all_goals simp [opField, rdField, rs1Field, immField]

theorem MatchesRow.adlget (rd : Reg) : MatchesRow.Statement (.adlget rd) := by
  refine ⟨rows[11], List.getElem_mem _, and_word ?_ ?_ ?_ ?_, ?_⟩ <;>
    simp [rows, encode, immField_formatR]
  all_goals simp [opField, rdField, rs1Field, immField]

theorem MatchesRow.put16le (rs1 : Reg) (rs2 : Reg) : MatchesRow.Statement (.put16le rs1 rs2) := by
  refine ⟨rows[12], List.getElem_mem _, and_word ?_ ?_ ?_ ?_, ?_⟩ <;>
    simp [rows, encode, immField_formatR]
  all_goals simp [opField, rdField, rs1Field, immField]

theorem MatchesRow.put16be (rs1 : Reg) (rs2 : Reg) : MatchesRow.Statement (.put16be rs1 rs2) := by
  refine ⟨rows[13], List.getElem_mem _, and_word ?_ ?_ ?_ ?_, ?_⟩ <;>
    simp [rows, encode, immField_formatR]
  all_goals simp [opField, rdField, rs1Field, immField]

theorem MatchesRow.put32be (rs1 : Reg) (rs2 : Reg) : MatchesRow.Statement (.put32be rs1 rs2) := by
  refine ⟨rows[14], List.getElem_mem _, and_word ?_ ?_ ?_ ?_, ?_⟩ <;>
    simp [rows, encode, immField_formatR]
  all_goals simp [opField, rdField, rs1Field, immField]

theorem MatchesRow.palpack (rd : Reg) (rs1 : Reg) (rs2 : Reg) (rs3 : Reg) (rs4 : Reg) : MatchesRow.Statement (.palpack rd rs1 rs2 rs3 rs4) := by
  refine ⟨rows[15], List.getElem_mem _, and_word ?_ ?_ ?_ ?_, ?_⟩ <;>
    simp [rows, encode, immField_formatR]
  all_goals simp [opField, rdField, rs1Field, immField]

theorem MatchesRow.zframe (rd : Reg) (rs1 : Reg) (rs2 : Reg) (rs3 : Reg) (rs4 : Reg) : MatchesRow.Statement (.zframe rd rs1 rs2 rs3 rs4) := by
  refine ⟨rows[16], List.getElem_mem _, and_word ?_ ?_ ?_ ?_, ?_⟩ <;>
    simp [rows, encode, immField_formatR]
  all_goals simp [opField, rdField, rs1Field, immField]

theorem MatchesRow.chunk (rd : Reg) (rs1 : Reg) (rs2 : Reg) (rs3 : Reg) (rs4 : Reg) : MatchesRow.Statement (.chunk rd rs1 rs2 rs3 rs4) := by
  refine ⟨rows[17], List.getElem_mem _, and_word ?_ ?_ ?_ ?_, ?_⟩ <;>
    simp [rows, encode, immField_formatR]
  all_goals simp [opField, rdField, rs1Field, immField]

end Sys2Proof.Laws
end

