-- ==== Sys2Proof/Tests/Slice0.lean ====
section
/-! SUPPORT. The model's own tests, and a witness for the hypotheses of each obligation. Expected values are those of
95_test_vectors.md and 96_test_vectors_2.md (named by vector id) or are written out from the encodings of 30_encoding.md. -/

namespace Sys2Proof.Tests

open Sys2Proof.Machine

/-! ### Helpers: the vectors' start state (`MEMSIZE = 0x10000`, every byte of `M` not loaded is `EE`) -/

/-- The start state of 95_test_vectors.md. -/
def base : State := { State.reset with M := ⟨0x10000, [], some 0xEE, []⟩ }

/-- The start state with registers and memory loaded. -/
def bench (xs : List (Reg × Word)) (loads : List (Nat × List Byte)) : State :=
  xs.foldl (fun s p => writeX s p.1 p.2) (loads.foldl (fun s p => withM s (s.M.writeBytes p.1 p.2)) base)

/-- What a function sees of the next state, if there is one. -/
def see {α : Type} (o : Host.Outcome State Fault Refusal) (f : State → α) : Option α :=
  match o with
  | .next t => some (f t)
  | .fault _ => none
  | .refused _ => none

/-- The error record and the bytes of a region. -/
def errAndBytes (a n : Nat) (t : State) : Byte × Word × List Byte := (t.ERR, t.ERRINFO, t.M.readBytes a n)

/-- The state of an error, for fail-stop. -/
def stopped : State := { bench [(3, 6)] [] with ERR := 3, ERRINFO := 0x30512340 }

/-! ### WellFormed: an ill-formed term for each check -/

theorem test_wf_csrr_4_refused : (Instr.csrr 1 4).wellFormed = false := by decide
theorem test_wf_csrr_65535_refused : (Instr.csrr 1 0xFFFF).wellFormed = false := by decide
theorem test_wf_csrw_status_refused : (Instr.csrw 0 1).wellFormed = false := by decide
theorem test_wf_csrw_errinfo_refused : (Instr.csrw 3 1).wellFormed = false := by decide
theorem test_wf_csrw_4_refused : (Instr.csrw 4 1).wellFormed = false := by decide
theorem test_wf_accepts : [Instr.csrr 1 3, .csrr 1 0, .csrw 1 1, .csrw 2 1, .nop, .chunk 1 2 3 4 5].all (·.wellFormed) = true := by
  decide

/-! ### Decoding: a word written out from the encoding column of R86 for every constructor -/

theorem test_decode_nop : decodeTableWord 32 0b00000000000000000000000000000000 = some .nop := by decide
-- 00000001 dddd 0000 iiiiiiiiiiiiiiii
theorem test_decode_li : decodeTableWord 32 0b00000001_0011_0000_0000000000001000 = some (.li 3 8) := by decide
theorem test_decode_lih : decodeTableWord 32 0b00000010_1100_0000_1000100101010000 = some (.lih 12 0x8950) := by decide
theorem test_decode_csrr : decodeTableWord 32 0b00000011_1111_0000_0000000000000011 = some (.csrr 15 3) := by decide
-- 00000100 0000 ssss cccccccccccccccc
theorem test_decode_csrw : decodeTableWord 32 0b00000100_0000_0001_0000000000000010 = some (.csrw 2 1) := by decide
theorem test_decode_clrerr : decodeTableWord 32 0b00000101_000000000000000000000000 = some .clrerr := by decide
theorem test_decode_crcinit : decodeTableWord 32 0b00010000_000000000000000000000000 = some .crcinit := by decide
theorem test_decode_crctab : decodeTableWord 32 0b00010001_0110_0010_0000000000000000 = some (.crctab 6 2) := by decide
theorem test_decode_crc32 : decodeTableWord 32 0b00010010_0011_0001_0010_000000000000 = some (.crc32 3 1 2) := by decide
theorem test_decode_adlinit : decodeTableWord 32 0b00011000_000000000000000000000000 = some .adlinit := by decide
theorem test_decode_adlupd : decodeTableWord 32 0b00011001_0000_0001_0010_000000000000 = some (.adlupd 1 2) := by decide
theorem test_decode_adlget : decodeTableWord 32 0b00011010_0100_00000000000000000000 = some (.adlget 4) := by decide
theorem test_decode_put16le : decodeTableWord 32 0b00100000_0000_0001_0010_000000000000 = some (.put16le 1 2) := by decide
theorem test_decode_put16be : decodeTableWord 32 0b00100001_0000_1011_1100_000000000000 = some (.put16be 11 12) := by decide
theorem test_decode_put32be : decodeTableWord 32 0b00100010_0000_0101_0011_000000000000 = some (.put32be 5 3) := by decide
theorem test_decode_palpack : decodeTableWord 32 0b00110000_0101_0001_0010_0011_0100_0000 = some (.palpack 5 1 2 3 4) := by
  decide
theorem test_decode_zframe : decodeTableWord 32 0b01000000_1010_0101_0110_0111_1000_0000 = some (.zframe 10 5 6 7 8) := by
  decide
theorem test_decode_chunk : decodeTableWord 32 0b01010000_0110_0110_0011_0111_1000_0000 = some (.chunk 6 6 3 7 8) := by decide

/-- 96 §7.3: the illegal words match no row; `0x03100004`, `0x04010000`, `0x04010003` match theirs (R90). -/
theorem test_decode_illegal : [0x00000001, 0x00100000, 0x06000000, 0x0F000000, 0x13000000, 0x17000000, 0x1B000000, 0x23012000,
    0x31000000, 0x60000000, 0xFFFFFFFF, 0x01110005, 0x02110005, 0x03110000, 0x04110001, 0x05000001, 0x10000100, 0x11121000,
    0x12312001, 0x12312100, 0x18100000, 0x19112000, 0x1A100010, 0x1A110000, 0x20112000, 0x21012300, 0x22012001, 0x30512341,
    0x40512348, 0x5051234F].all (fun w => decodeTableWord 32 w == none) = true := by decide

/-- The reasons are told apart: R88's opcode, R89's field. -/
theorem test_decode_reasons : (match decode 0x06000000, decode 0x1A110000 with
    | .error (.unknownOpcode 0x06), .error (.mustBeZero 0x1A) => true
    | _, _ => false) = true := by decide

/-- The encoder writes the words of 95 §8 program P1. -/
theorem test_encode_p1 : [Instr.li 1 0x100, .crc32 3 1 2, .adlupd 1 2, .adlget 4, .put32be 5 3, .crctab 6 2, .csrr 7 0].map encode =
    [0x01100100, 0x12312000, 0x19012000, 0x1A400000, 0x22053000, 0x11620000, 0x03700000] := by decide

/-! ### Control commands (96 §7.1, §7.2) -/

theorem test_nop_same_state : issue 0x00000000 base = .next base := rfl
theorem test_li_zero_extends : see (issue 0x0170FFFF (bench [(7, 0xAAAA5555)] [])) (fun t => (readX t 7, t.ERR)) =
    some (0x0000FFFF, 0) := by decide
theorem test_lih_keeps_low_half : see (issue 0x02701234 (bench [(7, 0xAAAA5555)] [])) (fun t => (readX t 7, readX t 6)) =
    some (0x12345555, 0) := by decide
theorem test_csrr_status : see (issue 0x03100000 { bench [(1, 0xDEAD)] [] with TV := true, HIATTR := true, BANK := 77 })
    (readX · 1) = some 0x00000100 := by decide
theorem test_csrr_bad_number : see (issue 0x03100004 (bench [(1, 0xDEAD)] [])) (fun t => (t.ERR, t.ERRINFO, readX t 1)) =
    some (1, 0x03100004, 0xDEAD) := by decide
theorem test_csrw_cfg_bit_0_only : see (issue 0x04010001 { bench [(1, 0xFFFFFFFE)] [] with HIATTR := true })
    (fun t => (t.HIATTR, t.BANK)) = some (false, 0) := by decide
theorem test_csrw_read_only : see (issue 0x04010003 (bench [(1, 5)] [])) (fun t => (t.ERR, t.ERRINFO, t.BANK, t.HIATTR)) =
    some (1, 0x04010003, 0, false) := by decide
theorem test_clrerr_in_fail_stop : see (issue 0x05000000 stopped) (fun t => (t.ERR, t.ERRINFO, readX t 3)) =
    some (0, 0, 6) := by decide
/-- 96 §7.4: an illegal word does not replace the recorded error. -/
theorem test_fail_stop_ignores : issue 0xFFFFFFFF stopped = .next stopped ∧ issue 0x01300008 stopped = .next stopped :=
  ⟨rfl, rfl⟩

/-! ### Checksum engines (95 §2) -/

theorem test_crcinit_table : see (issue 0x10000000 base) (fun t => (t.TV, t.T[1], t.T[128], t.T[255])) =
    some (true, 0x77073096, 0xEDB88320, 0x2D02EF8D) := by decide +kernel
theorem test_crctab_low_byte : see (issue 0x11120000 (bench [(2, 0xFFFFFF80)] [])) (fun t => (readX t 1, t.TV)) =
    some (0xEDB88320, true) := by decide
theorem test_crctab_rd_is_rs1 : see (issue 0x11220000 (bench [(2, 8)] [])) (readX · 2) = some 0x0EDB8832 := by decide
theorem test_crc32_check_value : see (issue 0x12312000 (bench [(1, 0x100), (2, 9)]
    [(0x100, [0x31, 0x32, 0x33, 0x34, 0x35, 0x36, 0x37, 0x38, 0x39])])) (readX · 3) = some 0xCBF43926 := by decide +kernel
theorem test_crc32_no_wrap : see (issue 0x12312000 (bench [(1, 0xFFFFFFFF), (2, 0xFFFFFFFF), (3, 0x5555AAAA)] []))
    (fun t => (t.ERR, t.ERRINFO, readX t 3, t.TV)) = some (2, 0x12312000, 0x5555AAAA, false) := by decide
theorem test_adlinit : see (issue 0x18000000 { base with A := 0x1234, B := 0x567 }) (fun t => (t.A, t.B)) =
    some (1, 0) := by decide
/-- P1, command 9. -/
theorem test_adlupd_p1 : see (issue 0x19012000 { bench [(1, 0x104), (2, 5)] [(0x104, [0x35, 0x36, 0x37, 0x38, 0x39])] with
    A := 0xCB, B := 0x1F8 }) (fun t => (t.A, t.B)) = some (0x1DE, 0x91E) := by decide
/-- 95 §2.3: `(65520, 65520)` and the byte `F0` give `(239, 238)`. -/
theorem test_adlupd_modulus : see (issue 0x19012000 { bench [(1, 0x100), (2, 1)] [(0x100, [0xF0])] with A := 65520, B := 65520 })
    (fun t => (t.A, t.B)) = some (239, 238) := by decide
theorem test_adlget : see (issue 0x1A400000 { base with A := 0x1DE, B := 0x91E }) (readX · 4) = some 0x091E01DE := by decide

/-! ### Packer (95 §3) -/

theorem test_put16le_at_end : see (issue 0x20012000 (bench [(1, 0xFFFE), (2, 0xAABBCCDD)] [])) (errAndBytes 0xFFFD 3) =
    some (0, 0, [0xEE, 0xDD, 0xCC]) := by decide
theorem test_put16le_past_end : see (issue 0x20012000 (bench [(1, 0xFFFF), (2, 0xAABBCCDD)] [])) (errAndBytes 0xFFFE 2) =
    some (2, 0x20012000, [0xEE, 0xEE]) := by decide
theorem test_put16be_at_end : see (issue 0x21012000 (bench [(1, 0xFFFE), (2, 0xAABBCCDD)] [])) (errAndBytes 0xFFFD 3) =
    some (0, 0, [0xEE, 0xCC, 0xDD]) := by decide
theorem test_put32be_at_end : see (issue 0x22012000 (bench [(1, 0xFFFC), (2, 0xAABBCCDD)] [])) (errAndBytes 0xFFFB 5) =
    some (0, 0, [0xEE, 0xAA, 0xBB, 0xCC, 0xDD]) := by decide
theorem test_put32be_one_register : see (issue 0x22011000 (bench [(1, 0x20)] [])) (errAndBytes 0x1F 6) =
    some (0, 0, [0xEE, 0, 0, 0, 0x20, 0xEE]) := by decide

/-! ### Palette repacker (96 §4) -/

/-- PP6(b): an overlap, defined by the order of the pseudocode. -/
theorem test_palpack_pp6b : see (issue 0x30512340 (bench [(1, 0x104), (2, 0x100), (3, 8), (4, 2)]
    [(0x100, [1, 2, 3, 4, 5, 6, 7, 8])])) (fun t => (t.M.readBytes 0x100 11, readX t 5)) =
    some ([1, 2, 3, 4, 3, 2, 1, 1, 2, 3, 0xEE], 6) := by decide
/-- PE5: the length check comes before the count check. -/
theorem test_palpack_pe5 : see (issue 0x30512340 (bench [(1, 0x300), (2, 0x100), (3, 6), (4, 0x12C), (5, 0xDEAD)] []))
    (fun t => (t.ERR, t.ERRINFO, readX t 5)) = some (3, 0x30512340, 0xDEAD) := by decide

/-! ### Stored-block framer (96 §5) -/

/-- Z5: hi-attribute mode, two rows. -/
theorem test_zframe_z5 : see (issue 0x40512340 { bench [(1, 0x400), (2, 0x200), (3, 3), (4, 2)] [(0x200, [5, 6, 7, 8, 9, 10])] with
    HIATTR := true, BANK := 4 }) (fun t => (t.M.readBytes 0x400 25, readX t 5, t.A, t.B)) =
    some ([0x78, 1, 0, 4, 0, 0xFB, 0xFF, 0, 1, 2, 3, 1, 4, 0, 0xFB, 0xFF, 0, 0, 1, 2, 0, 0x2E, 0, 0x0A, 0xEE],
      0x18, 0x0A, 0x2E) := by decide
/-- 96 §7.4 (b) to (d): the width before the bank before the bounds. -/
theorem test_zframe_priority :
    see (issue 0x40512340 { bench [(1, 0xFFFFFFFF), (3, 0x10000)] [] with HIATTR := true }) (·.ERR) = some 6 ∧
    see (issue 0x40512340 { bench [(1, 0xFFFFFFFF), (3, 0xFFFF)] [] with HIATTR := true }) (·.ERR) = some 7 ∧
    see (issue 0x40512340 { bench [(1, 0xFFFFFFFF), (3, 0xFFFF)] [] with HIATTR := true, BANK := 5 }) (·.ERR) = some 2 := by
  decide

/-! ### Chunk assembler (96 §6) -/

/-- CH8 (and CH2): the return value goes to the register of the address. -/
theorem test_chunk_ch8 : see (issue 0x50112340 (bench [(1, 0x300), (2, 0x504C5445), (3, 0x200), (4, 6)]
    [(0x200, [0xFF, 0, 0, 0, 0xFF, 0])])) (fun t => (t.M.readBytes 0x300 19, readX t 1, t.TV)) =
    some ([0, 0, 0, 6, 0x50, 0x4C, 0x54, 0x45, 0xFF, 0, 0, 0, 0xFF, 0, 0xD2, 0x87, 0xEF, 0x71, 0xEE], 0x312, true) := by decide +kernel
/-- CH7: an overlap; the payload copied is the type tag just written. -/
theorem test_chunk_ch7 : see (issue 0x50512340 (bench [(1, 0x10), (2, 0x41424344), (3, 0x14), (4, 4)]
    [(0x10, [0x10, 0x11, 0x12, 0x13, 0x14, 0x15, 0x16, 0x17])])) (fun t => (t.M.readBytes 0x10 16, readX t 5)) =
    some ([0, 0, 0, 4, 0x41, 0x42, 0x43, 0x44, 0x41, 0x42, 0x43, 0x44, 0x8D, 0x6D, 0, 0xB8], 0x20) := by decide +kernel

/-! ### The host port and the step -/

theorem test_host_read_in_fail_stop : see (perform (.readCsr .errinfo) stopped) (·.answers) =
    some [.csr .errinfo 0x30512340] := by decide
theorem test_host_write_outside : perform (.writeMem 0x10000 0) base = .fault (.hostOutsideM 0x10000) := rfl
/-- `withFetchWord` puts the word where the very next step takes it, in the reset state. -/
theorem test_fetch_word : see (step (State.reset.withFetchWord 32 0x01F0FFFF)) (fun t => (readX t 15, t.pending)) =
    some (0xFFFF, []) := by decide

/-! ### The assembler and the pseudo-instructions (95 §8) -/

theorem test_assemble_p1 : assemble ["  CRC32 x3, x1, x2 ; the string".toList, "".toList, "ADLINIT".toList,
    "LI x2, 0x0004".toList, "CSRR x7, STATUS".toList, "CSRW 2, x1".toList] =
    some [0x12312000, 0x18000000, 0x01200004, 0x03700000, 0x04010002] := by decide
/-- 96 §7.1: `LI32 x12, 0x89504E47`. -/
theorem test_assemble_li32 : assemble ["LI32 x12, 0x89504E47".toList] = some [0x01C04E47, 0x02C08950] := by decide
theorem test_assemble_rejects : ["LI x16, 0".toList, "LI x1, 65536".toList, "NOP x1".toList, "PUT32LE x1, x2".toList].map
    assembleLine = [none, none, none, none] := by decide

/-- The arguments of P3. -/
def p3 : EncodeArgs := ⟨0x1000, 0x100, 8, 2, 0x200, 2, 1, 0x2000⟩

/-- P3, words 1 to 18. -/
theorem test_encode_p3_palette_and_rows : (encodePalette p3 ++ encodeRows p3).map encode =
    [0x01102010, 0x02100000, 0x01200100, 0x02200000, 0x01300008, 0x02300000, 0x01400002, 0x02400000, 0x30912340,
      0x01502310, 0x02500000, 0x01600200, 0x02600000, 0x01700002, 0x02700000, 0x01800001, 0x02800000, 0x40A56780] := by decide
/-- P3, words 19 to 44. -/
theorem test_encode_p3_signature_and_header : (encodeSignature p3 ++ encodeHeader p3).map encode =
    [0x01B01000, 0x02B00000, 0x01C04E47, 0x02C08950, 0x220BC000, 0x01B01004, 0x02B00000, 0x01C01A0A, 0x02C00D0A, 0x220BC000] ++
    [0x01B02000, 0x02B00000, 0x220B7000, 0x01B02004, 0x02B00000, 0x220B8000, 0x01B02008, 0x02B00000] ++
    [0x01C00000, 0x02C00803, 0x220BC000, 0x01B0200B, 0x02B00000, 0x01C00000, 0x02C00000, 0x210BC000] := by decide
/-- P3, words 45 to 64. -/
theorem test_encode_p3_chunks : (encodeChunks p3).map encode =
    [0x01B01008, 0x02B00000, 0x01C04452, 0x02C04948, 0x01D02000, 0x02D00000, 0x01E0000D, 0x02E00000, 0x50BBCDE0] ++
    [0x01C05445, 0x02C0504C, 0x50BBC190, 0x01C04154, 0x02C04944, 0x50BBC5A0] ++
    [0x01C04E44, 0x02C04945, 0x01E00000, 0x02E00000, 0x50BBCDE0] := by decide

/-! ### Witnesses: concrete states and operands that meet the hypotheses of each obligation, one for each clause -/

theorem next_of_see {o : Host.Outcome State Fault Refusal} {p : State → Bool} (h : see o p = some true) :
    ∃ t, o = .next t ∧ p t = true := by
  cases o <;> simp_all [see]

theorem disjoint_of_le {a n b k : Nat} (h : a + n ≤ b ∨ b + k ≤ a) : disjoint a n b k := by
  intro c hc; omega

theorem base_inv : base.Inv := ⟨by decide, by decide, by decide, by decide, by decide, by decide, by decide⟩

/-- A state with the table built, a loaded and written memory, sums and configuration set. -/
def busy : State := { bench [(1, 0x100), (2, 4)] [(0x100, [1, 2, 3, 4])] with
  T := crcTable, TV := true, A := 65520, B := 65520, HIATTR := true, BANK := 4 }

theorem busy_inv : busy.Inv := ⟨by decide, by decide, fun _ => rfl, by decide, by decide, by decide, by decide⟩

theorem witness_EncodeOfDecode : decode 0x50FFFFF0 = .ok (.chunk 15 15 15 15 15) := rfl

theorem witness_DecodeFollowsTheTable :
    (∃ r ∈ rows, (0x01F0FFFF : Word) &&& r.mask = r.pattern) ∧ (∀ r ∈ rows, (0x01F1FFFF : Word) &&& r.mask ≠ r.pattern) ∧
    ∃ r ∈ rows, ∃ r' ∈ rows, (0x50FFFFF0 : Word) &&& r.mask = r.pattern ∧ (0x50FFFFF0 : Word) &&& r'.mask = r'.pattern := by
  decide

theorem witness_UnknownOpcodeRaises : base.ERR = 0 ∧ [0x06000000, 0x51000000, 0xFFFFFFFF].all (fun w =>
    opField w ∉ ([0x00, 0x01, 0x02, 0x03, 0x04, 0x05, 0x10, 0x11, 0x12, 0x18, 0x19, 0x1A, 0x20, 0x21, 0x22, 0x30, 0x40,
      0x50] : List Byte)) = true := by decide

theorem witness_UnusedFieldNonZeroRaises : base.ERR = 0 ∧ [0x00000001, 0x1A100010, 0x01110005, 0x5051234F].all (fun w =>
    ∃ r ∈ rows, opField w = opField r.pattern ∧ w &&& r.mask ≠ r.pattern) = true := by decide

theorem witness_BadCsrNumberRaises : 4 ≤ (4 : Half).toNat ∧ 4 ≤ (0xFFFF : Half).toNat ∧ (0 : Half).toNat = 0 ∧
    (3 : Half).toNat = 3 := by decide

theorem witness_StepRunsIssuedCommand :
    (∃ s : State, s.pending = .issue 0x01300008 :: [.reset] ∧ s.ERR = 0 ∧ decode 0x01300008 = .ok (.li 3 8)) ∧
    (∃ s : State, s.pending = .reset :: []) ∧ ∃ s : State, s.pending = [] :=
  ⟨⟨{ base with pending := [.issue 0x01300008, .reset] }, rfl, rfl, rfl⟩, ⟨{ base with pending := [.reset] }, rfl⟩, base, rfl⟩

theorem witness_FailStopIgnoresWords : stopped.ERR ≠ 0 ∧ (0x05000001 : Word) ≠ 0x05000000 ∧ 0xFFFF < stopped.M.size.val := by
  decide

theorem witness_OnlyClrerrOrResetLeavesFailStop : ∀ h ∈ [HostAction.issue 0x05000000, .reset],
    stopped.ERR ≠ 0 ∧ ∃ t, step { stopped with pending := [h] } = .next t ∧ t.ERR = 0 := by
  intro h hh
  simp only [List.mem_cons, List.not_mem_nil, or_false] at hh
  rcases hh with rfl | rfl <;> exact ⟨by decide, _, rfl, rfl⟩

theorem witness_ErrorsArePrecise : base.ERR = 0 ∧ ∃ t, issue 0x06000000 base = .next t ∧ t.ERR ≠ 0 :=
  ⟨rfl, _, rfl, by decide⟩

theorem witness_ErrorConditions : base.ERR = 0 ∧ ∀ i, encode i ≠ 0xFFFFFFFF := by
  refine ⟨rfl, fun i h => ?_⟩
  have h8 := congrArg opField h
  have h1 : opField 0xFFFFFFFF = 0xFF := rfl
  rw [h1] at h8
  cases i <;> simp [encode] at h8

theorem witness_StopsOnlyOnHostAccessOutsideM : base.M.size.val ≤ 0x10000 ∧
    step { base with pending := [.readMem 0x10000] } = .fault (.hostOutsideM 0x10000) := ⟨by decide, rfl⟩

theorem witness_StepKeepsInvariant : { busy with pending := [.issue 0x19012000] }.Inv ∧
    ∃ t, step { busy with pending := [.issue 0x19012000] } = .next t ∧ t.A.toNat = 9 := by
  refine ⟨⟨by decide, by decide, fun _ => rfl, by decide, by decide, by decide, by decide⟩, ?_⟩
  simpa using next_of_see (p := fun t => decide (t.A.toNat = 9)) (by decide +kernel)

theorem witness_ConfigurationWrittenByCsrwOnly :
    (∃ t, step { busy with pending := [.issue 0x04010002] } = .next t ∧ t.BANK ≠ busy.BANK) ∧
    ∃ t, step { busy with pending := [.reset] } = .next t ∧ t.HIATTR ≠ busy.HIATTR :=
  ⟨⟨_, rfl, by decide⟩, _, rfl, by decide⟩

theorem witness_SumsWrittenByAdlerCommandsOnly :
    (∃ t, step { busy with pending := [.issue 0x18000000] } = .next t ∧ t.A ≠ busy.A) ∧
    (∃ t, step { busy with pending := [.issue 0x19012000] } = .next t ∧ t.B ≠ busy.B) ∧
    ∃ t, step { busy with pending := [.issue 0x40512340] } = .next t ∧ t.A ≠ busy.A := by
  refine ⟨⟨_, rfl, by decide⟩, ?_, ?_⟩
  · simpa using next_of_see (p := fun t => decide (t.B ≠ busy.B)) (by decide +kernel)
  · simpa using next_of_see (p := fun t => decide (t.A ≠ busy.A)) (by decide +kernel)

theorem witness_TableBuiltOnce :
    (∃ t, step { busy with pending := [.reset] } = .next t ∧ t.TV = false) ∧
    (busy.TV = true ∧ ∃ t, step { busy with pending := [.issue 0x10000000] } = .next t ∧ t.TV = true) ∧
    base.TV = false ∧ ∃ t, step { base with pending := [.issue 0x10000000] } = .next t ∧ t.TV = true :=
  ⟨⟨_, rfl, rfl⟩, ⟨rfl, _, rfl, rfl⟩, rfl, _, rfl, rfl⟩

theorem witness_UnbuiltTableIsInvisible :
    base.TV = false ∧ (∃ t, step { base with pending := [.issue 0x11120000] } = .next t ∧ t.TV = true) ∧
    step { base with pending := [.readMem 0x10000] } = .fault (.hostOutsideM 0x10000) :=
  ⟨rfl, ⟨_, rfl, rfl⟩, rfl⟩

theorem witness_MemoryWrittenByWritersOnly :
    ∃ t, step { base with pending := [.issue 0x22012000] } = .next t ∧ t.M ≠ base.M := by
  simpa using next_of_see (o := step { base with pending := [.issue 0x22012000] }) (p := fun t => decide (t.M ≠ base.M)) (by decide)

theorem witness_OnlyDestinationRegisterWritten :
    destOf (.li 3 8) ≠ some 4 ∧ (∃ t, exec (.li 3 8) base = .next t) ∧
    base.ERR = 0 ∧ ∃ t, exec (.csrr 3 4) base = .next t ∧ t.ERR ≠ 0 :=
  ⟨by decide, ⟨_, rfl⟩, rfl, _, rfl, by decide⟩

theorem witness_OnlySourceRegistersRead : busy.ERR = 0 ∧
    (∀ r ∈ sourcesOf (.adlupd 1 2), (busy.x.set 9 7)[r.toNat] = readX busy r) ∧ (∃ t, exec (.adlupd 1 2) busy = .next t) ∧
    ∃ t, exec (.adlget 3) busy = .next t ∧ t.ERR = 0 ∧ destOf (.adlget 3) = some 3 :=
  ⟨rfl, by decide, ⟨_, rfl⟩, _, rfl, rfl, rfl⟩

theorem witness_NopDoesNothing : (0x00FFFFFF : Word) ≠ 0 ∧ (0x00FFFFFF : Word).toNat < 2 ^ 24 ∧ base.ERR = 0 := by decide

theorem witness_CsrrReadsCsr : (3 : Half).toNat < 4 ∧ (0 : Half).toNat = 0 ∧ (1 : Half).toNat = 1 ∧ (2 : Half).toNat = 2 ∧
    (3 : Half).toNat = 3 ∧ 4 ≤ (4 : Half).toNat := by decide

theorem witness_CsrwWritesCsr : (1 : Half).toNat = 1 ∧ (2 : Half).toNat = 2 ∧
    ((3 : Half).toNat ≠ 1 ∧ (3 : Half).toNat ≠ 2) ∧ ((0 : Half).toNat ≠ 1 ∧ (0 : Half).toNat ≠ 2) := by decide

theorem witness_ClrerrClearsRecord : (stopped.ERR ≠ 0 ∧ (0 : Word) ≠ 0x05000000) ∧ base.Inv ∧ base.ERR = 0 :=
  ⟨by decide, base_inv, rfl⟩

theorem witness_CrcinitBuildsTable : base.Inv ∧ base.TV = false ∧ busy.Inv ∧ busy.TV = true :=
  ⟨base_inv, rfl, busy_inv, rfl⟩

theorem witness_CrctabReadsEntry : base.Inv ∧ busy.Inv := ⟨base_inv, busy_inv⟩

/-- `x1 = 0xFFFC`, and `x2` bytes from there: 4 just fit, 5 do not. -/
def edge (n : Word) : State := bench [(1, 0xFFFC), (2, n)] []

theorem edge_inv : (edge 4).Inv ∧ (edge 5).Inv :=
  ⟨⟨by decide, by decide, by decide, by decide, by decide, by decide, by decide⟩,
    by decide, by decide, by decide, by decide, by decide, by decide, by decide⟩

theorem witness_Crc32OfRegion :
    ((edge 4).Inv ∧ (readX (edge 4) 1).toNat + (readX (edge 4) 2).toNat ≤ (edge 4).M.size.val) ∧
    (edge 5).Inv ∧ (edge 5).M.size.val < (readX (edge 5) 1).toNat + (readX (edge 5) 2).toNat :=
  ⟨⟨edge_inv.1, by decide⟩, edge_inv.2, by decide⟩

theorem witness_AdlupdClosedForm :
    ((edge 4).Inv ∧ (readX (edge 4) 1).toNat + (readX (edge 4) 2).toNat ≤ (edge 4).M.size.val) ∧
    (edge 5).Inv ∧ (edge 5).M.size.val < (readX (edge 5) 1).toNat + (readX (edge 5) 2).toNat := witness_Crc32OfRegion

/-- The two parts of P1's string: `x1, x2` then `x3, x4`; `x5` is the whole length. -/
def parts : State := bench [(1, 0x100), (2, 4), (3, 0x104), (4, 5), (5, 9)] []

theorem witness_AdlerIsIncremental : readX parts 1 = readX parts 1 ∧
    (readX parts 3).toNat = (readX parts 1).toNat + (readX parts 2).toNat ∧
    (readX parts 5).toNat = (readX parts 2).toNat + (readX parts 4).toNat ∧
    (readX parts 1).toNat + (readX parts 5).toNat ≤ parts.M.size.val := by decide

theorem witness_Put16leWritesField :
    (readX (bench [(1, 0xFFFE)] []) 1).toNat + 2 ≤ (bench [(1, 0xFFFE)] []).M.size.val ∧
    (bench [(1, 0xFFFF)] []).M.size.val < (readX (bench [(1, 0xFFFF)] []) 1).toNat + 2 := by decide

theorem witness_Put16beWritesField :
    (readX (bench [(1, 0xFFFE)] []) 1).toNat + 2 ≤ (bench [(1, 0xFFFE)] []).M.size.val ∧
    (bench [(1, 0xFFFF)] []).M.size.val < (readX (bench [(1, 0xFFFF)] []) 1).toNat + 2 := by decide

theorem witness_Put32beWritesField :
    (readX (bench [(1, 0xFFFC)] []) 1).toNat + 4 ≤ (bench [(1, 0xFFFC)] []).M.size.val ∧
    (bench [(1, 0xFFFD)] []).M.size.val < (readX (bench [(1, 0xFFFD)] []) 1).toNat + 4 := by decide

/-- Operands `x1` to `x4` as the vectors of 96 §4 to §6 give them. -/
def four (a b c d : Word) : State := bench [(1, a), (2, b), (3, c), (4, d)] []

/-- The largest palette, disjoint and in place, just inside `M`. -/
theorem witness_PalpackRepacks :
    (let s := four 0xFD00 0xF900 1024 256;
      0xFD00 = (readX s 1).toNat ∧ 0xF900 = (readX s 2).toNat ∧ 1024 = (readX s 3).toNat ∧ 256 = (readX s 4).toNat ∧
      1024 % 4 = 0 ∧ 256 ≤ 256 ∧ 4 * 256 ≤ 1024 ∧ 0xF900 + 1024 ≤ s.M.size.val ∧ 0xFD00 + 3 * 256 ≤ s.M.size.val ∧
      disjoint 0xF900 (4 * 256) 0xFD00 (3 * 256)) ∧
    (let s := four 0x100 0x100 12 3;
      0x100 = (readX s 1).toNat ∧ 0x100 = (readX s 2).toNat ∧ 12 = (readX s 3).toNat ∧ 3 = (readX s 4).toNat ∧
      12 % 4 = 0 ∧ 3 ≤ 256 ∧ 4 * 3 ≤ 12 ∧ 0x100 + 12 ≤ s.M.size.val ∧ 0x100 + 3 * 3 ≤ s.M.size.val) :=
  ⟨⟨by decide, by decide, by decide, by decide, by decide, by decide, by decide, by decide, by decide,
    disjoint_of_le (by decide)⟩, by decide⟩

/-- PE2, PE3, PE4 (at `count = 257`, `12 > 8`), a source one byte too long and PE8, each as the first failing check. -/
theorem witness_PalpackChecks :
    6 % 4 ≠ 0 ∧ (0x404 % 4 = 0 ∧ 256 < 257) ∧ (8 % 4 = 0 ∧ 3 ≤ 256 ∧ 8 < 4 * 3) ∧
    (4 % 4 = 0 ∧ 1 ≤ 256 ∧ 4 * 1 ≤ 4 ∧ base.M.size.val < 0xFFFD + 4) ∧
    (8 % 4 = 0 ∧ 1 ≤ 256 ∧ 4 * 1 ≤ 8 ∧ base.M.size.val < 0xFFFE + 3 * 1) ∧
    (readX (four 0x300 0x100 6 1) 3).toNat = 6 ∧ (readX (four 0x300 0x100 0x404 257) 4).toNat = 257 ∧
    (readX (four 0x300 0x100 8 3) 4).toNat = 3 ∧ (readX (four 0x300 0xFFFD 4 1) 2).toNat = 0xFFFD ∧
    (readX (four 0xFFFE 0x100 8 1) 1).toNat = 0xFFFE := by decide

/-- ZE7 (just fits), `W = 65535` in a larger `M`, and hi-attribute mode. -/
theorem witness_ZframeWritesStream :
    (let s := four 0xFFF2 0x200 2 1;
      0xFFF2 = (readX s 1).toNat ∧ 0x200 = (readX s 2).toNat ∧ 2 = (readX s 3).toNat ∧ 1 = (readX s 4).toNat ∧
      2 ≤ 65535 ∧ ¬ (s.HIATTR = true ∧ s.BANK = 0) ∧ 0xFFF2 + (6 + 1 * (2 + 6)) ≤ s.M.size.val ∧ 0x200 + 2 * 1 ≤ s.M.size.val ∧
      disjoint 0x200 (2 * 1) 0xFFF2 (6 + 1 * (2 + 6))) ∧
    (let s := { four 0x20000 0 65535 1 with M := ⟨0x40000, [], some 1, []⟩, HIATTR := true, BANK := 1 };
      0x20000 = (readX s 1).toNat ∧ 0 = (readX s 2).toNat ∧ 65535 = (readX s 3).toNat ∧ 1 = (readX s 4).toNat ∧
      65535 ≤ 65535 ∧ ¬ (s.HIATTR = true ∧ s.BANK = 0) ∧ 0x20000 + (6 + 1 * (65535 + 6)) ≤ s.M.size.val ∧
      0 + 65535 * 1 ≤ s.M.size.val ∧ disjoint 0 (65535 * 1) 0x20000 (6 + 1 * (65535 + 6))) :=
  ⟨⟨by decide, by decide, by decide, by decide, by decide, by decide, by decide, by decide, disjoint_of_le (by decide)⟩,
    by decide, by decide, by decide, by decide, by decide, by decide, by decide, by decide, disjoint_of_le (by decide)⟩

/-- ZE2, ZE5, ZE6 and ZE8. -/
theorem witness_ZframeChecks :
    65535 < (readX (four 0x400 0x200 0x10000 0) 3).toNat ∧
    ((readX (four 0xFFFF 0x200 65535 1) 3).toNat ≤ 65535 ∧ { four 0xFFFF 0x200 65535 1 with HIATTR := true }.HIATTR = true ∧
      (four 0xFFFF 0x200 65535 1).BANK = 0) ∧
    (2 ≤ 65535 ∧ ¬ (base.HIATTR = true ∧ base.BANK = 0) ∧
      base.M.size.val < (readX (four 0xFFF3 0x200 2 1) 1).toNat + (6 + 1 * (2 + 6))) ∧
    base.M.size.val < (readX (four 0x400 0xFFFF 2 1) 2).toNat + 2 * 1 := by decide

theorem witness_ZframeStreamInflates :
    (let s := four 0x400 0x200 3 2;
      0x400 = (readX s 1).toNat ∧ 0x200 = (readX s 2).toNat ∧ 3 = (readX s 3).toNat ∧ 2 = (readX s 4).toNat ∧
      3 ≤ 65534 ∧ 1 ≤ 2 ∧ s.HIATTR = false ∧ 0x400 + (6 + 2 * (3 + 6)) ≤ s.M.size.val ∧ 0x200 + 3 * 2 ≤ s.M.size.val ∧
      disjoint 0x200 (3 * 2) 0x400 (6 + 2 * (3 + 6))) ∧
    (let s := { four 0x20000 0 65534 1 with M := ⟨0x40000, [], some 1, []⟩ };
      65534 = (readX s 3).toNat ∧ 65534 ≤ 65534 ∧ s.HIATTR = false ∧ 0x20000 + (6 + 1 * (65534 + 6)) ≤ s.M.size.val ∧
      disjoint 0 (65534 * 1) 0x20000 (6 + 1 * (65534 + 6))) :=
  ⟨⟨by decide, by decide, by decide, by decide, by decide, by decide, by decide, by decide, by decide,
    disjoint_of_le (by decide)⟩, by decide, by decide, by decide, by decide, disjoint_of_le (by decide)⟩

/-- CE1 (ends at `MEMSIZE`), CH2 and CE2, CE3. -/
theorem witness_ChunkAssembles :
    (base.Inv ∧ (readX (four 0xFFF4 0x49454E44 0x10000 0) 1).toNat + (12 + 0) ≤ base.M.size.val ∧
      (readX (four 0xFFF4 0x49454E44 0x10000 0) 3).toNat + 0 ≤ base.M.size.val ∧ disjoint 0x10000 0 0xFFF4 (12 + 0)) ∧
    (0x300 + (12 + 6) ≤ base.M.size.val ∧ 0x200 + 6 ≤ base.M.size.val ∧ disjoint 0x200 6 0x300 (12 + 6)) ∧
    base.M.size.val < (readX (four 0xFFF5 0x49454E44 0 0) 1).toNat + (12 + 0) ∧
    base.M.size.val < (readX (four 0x300 0x49454E44 0x10001 0) 3).toNat + 0 :=
  ⟨⟨base_inv, by decide, by decide, disjoint_of_le (by decide)⟩, ⟨by decide, by decide, disjoint_of_le (by decide)⟩,
    by decide, by decide⟩

theorem witness_HostPortActions : 0xFFFF < base.M.size.val ∧ base.M.size.val ≤ 0x10000 ∧
    ∃ v, exec (.csrr 0 (csrNumber .errinfo)) stopped = .next v := ⟨by decide, by decide, _, rfl⟩

theorem witness_Li32LoadsConstant : ∃ s : State, s.ERR = 0 ∧ s.pending = issueAll (li32 12 0x89504E47) ++ [.readReg 12] :=
  ⟨{ base with pending := issueAll (li32 12 0x89504E47) ++ [.readReg 12] }, rfl, rfl⟩

theorem witness_EncodeExpands : (encodeSeq p3).isSome = true ∧
    encodeSeq { p3 with OUT := 0xFFFFFFF8 } = none ∧ (encodeSeq { p3 with OUT := 0xFFFFFFF7 }).isSome = true ∧
    encodeSeq { p3 with SCR := 0xFFFFFCF0 } = none ∧ (encodeSeq { p3 with SCR := 0xFFFFFCEF }).isSome = true := by decide

/-- P3's start state: the palette at `0x100`, the pixels at `0x200`. -/
def p3State : State := bench [] [(0x100, [0, 0, 0xFF, 0xFF, 0, 0xFF, 0, 0xFF]), (0x200, [0, 1])]

theorem p3_ready : EncodeReady p3State p3 :=
  ⟨by decide, by decide, by decide, by decide, by decide, by decide, by decide, by decide, by decide, by decide,
    disjoint_of_le (by decide), disjoint_of_le (by decide), disjoint_of_le (by decide), disjoint_of_le (by decide),
    disjoint_of_le (by decide), disjoint_of_le (by decide)⟩

theorem witness_EncodeEndState : ∃ s l rest, s.Inv ∧ EncodeReady s p3 ∧ encodeSeq p3 = some l ∧
    s.pending = issueAll l ++ rest :=
  ⟨{ p3State with pending := issueAll (encodePalette p3 ++ encodeRows p3 ++ encodeSignature p3 ++ encodeHeader p3 ++
      encodeChunks p3) ++ [.readReg 11] }, _, [.readReg 11],
    ⟨by decide, by decide, (fun h => nomatch h), by decide, by decide, by decide, fun _ => rfl⟩,
    { p3_ready with }, rfl, rfl⟩

theorem witness_EncodeWritesPng : ∃ s l rest, s.Inv ∧ EncodeReady s p3 ∧ encodeSeq p3 = some l ∧
    s.pending = issueAll l ++ rest := witness_EncodeEndState

end Sys2Proof.Tests
end

/-! PROOFS. The statements of 10_state.md. -/

/-! ### The word of a decoded command -/

namespace Sys2Proof

/-- A word that a row selects is the word of the row's command: a field that the command does not use is fixed by the mask,
every other field is carried over (30_encoding.md R86). -/
theorem encode_build : ∀ r ∈ rows, ∀ w, w &&& r.mask = r.pattern → encode (r.build w) = w := by
  simp only [rows, List.forall_mem_cons, List.not_mem_nil, false_implies, implies_true, and_true]
  refine ⟨fun w h => ?nop, fun w h => ?li, fun w h => ?lih, fun w h => ?csrr, fun w h => ?csrw, fun w h => ?clrerr,
    fun w h => ?crcinit, fun w h => ?crctab, fun w h => ?crc32, fun w h => ?adlinit, fun w h => ?adlupd,
    fun w h => ?adlget, fun w h => ?put16le, fun w h => ?put16be, fun w h => ?put32be, fun w h => ?palpack,
    fun w h => ?zframe, fun w h => ?chunk⟩
  case li | lih | csrr =>
    exact formatI_of_fields (field_of_match 24 8 h rfl) rfl (field_of_match 16 4 h rfl) rfl
  case csrw => exact formatI_of_fields (field_of_match 24 8 h rfl) (field_of_match 20 4 h rfl) rfl rfl
  case nop | clrerr | crcinit | adlinit =>
    exact formatR_of_fields (field_of_match 0 4 h rfl) (field_of_match 24 8 h rfl) (field_of_match 20 4 h rfl)
      (field_of_match 16 4 h rfl) (field_of_match 12 4 h rfl) (field_of_match 8 4 h rfl) (field_of_match 4 4 h rfl)
  case crctab =>
    exact formatR_of_fields (field_of_match 0 4 h rfl) (field_of_match 24 8 h rfl) rfl rfl
      (field_of_match 12 4 h rfl) (field_of_match 8 4 h rfl) (field_of_match 4 4 h rfl)
  case crc32 =>
    exact formatR_of_fields (field_of_match 0 4 h rfl) (field_of_match 24 8 h rfl) rfl rfl rfl
      (field_of_match 8 4 h rfl) (field_of_match 4 4 h rfl)
  case adlget =>
    exact formatR_of_fields (field_of_match 0 4 h rfl) (field_of_match 24 8 h rfl) rfl (field_of_match 16 4 h rfl)
      (field_of_match 12 4 h rfl) (field_of_match 8 4 h rfl) (field_of_match 4 4 h rfl)
  case adlupd | put16le | put16be | put32be =>
    exact formatR_of_fields (field_of_match 0 4 h rfl) (field_of_match 24 8 h rfl) (field_of_match 20 4 h rfl) rfl rfl
      (field_of_match 8 4 h rfl) (field_of_match 4 4 h rfl)
  case palpack | zframe | chunk =>
    exact formatR_of_fields (field_of_match 0 4 h rfl) (field_of_match 24 8 h rfl) rfl rfl rfl rfl rfl

/-- A word that decodes to a command is the command's word: decoding drops no bit (30_encoding.md R86, R89). -/
theorem encode_of_decode {w : Word} {i : Instr} (h : decode w = .ok i) : encode i = w := by
  obtain ⟨r, hr, hm, rfl⟩ := match_of_decode h
  exact encode_build r hr w hm

end Sys2Proof

namespace Sys2Proof.Machine

/-! ### What a step changes -/

/-- Nothing of the block is changed but its error record, and that only to record an error (60_exceptions.md R205). The
host's own side may change. -/
structure State.OnlyRecords (s t : State) : Prop where
  frame : t = { s with ERR := t.ERR, ERRINFO := t.ERRINFO, pending := t.pending, answers := t.answers }
  record : (t.ERR = s.ERR ∧ t.ERRINFO = s.ERRINFO) ∨ (t.ERR ≠ 0 ∧ t.ERR.toNat ≤ 7)

section OnlyRecords
variable {s t : State} (h : s.OnlyRecords t)
include h

theorem State.OnlyRecords.M : t.M = s.M := (congrArg State.M h.frame :)
theorem State.OnlyRecords.T : t.T = s.T := (congrArg State.T h.frame :)
theorem State.OnlyRecords.TV : t.TV = s.TV := (congrArg State.TV h.frame :)
theorem State.OnlyRecords.A : t.A = s.A := (congrArg State.A h.frame :)
theorem State.OnlyRecords.B : t.B = s.B := (congrArg State.B h.frame :)
theorem State.OnlyRecords.HIATTR : t.HIATTR = s.HIATTR := (congrArg State.HIATTR h.frame :)
theorem State.OnlyRecords.BANK : t.BANK = s.BANK := (congrArg State.BANK h.frame :)

end OnlyRecords

/-- The code of an error that a command raises is one of R200. -/
theorem erring_code {i : Instr} {s : State} (h : errorCode s i ≠ 0) :
    BitVec.ofNat 8 (errorCode s i) ≠ 0 ∧ (BitVec.ofNat 8 (errorCode s i)).toNat ≤ 7 := by
  have hle := errorCode_le i s
  have hn : (BitVec.ofNat 8 (errorCode s i)).toNat = errorCode s i := by
    rw [BitVec.toNat_ofNat]; omega
  exact ⟨fun h0 => h (by rw [← hn, h0]; rfl), hn.trans_le hle⟩

/-- Everything a step can change: the record of an error, what the effect of an issued command changes, a byte that the host
writes, or what a reset changes (20_memory.md R62). -/
theorem step_changes {s t : State} (h : step s = .next t) :
    s.OnlyRecords t ∨ ∃ rest,
      (∃ i, s.pending = .issue (encode i) :: rest ∧ (s.ERR = 0 ∨ i = .clrerr) ∧ errorCode s i = 0 ∧
        t = { effect i s with pending := rest }) ∨
      (∃ a b, s.pending = .writeMem a b :: rest ∧ a < s.M.size.val ∧
        t = { s with pending := rest, M := s.M.write a b }) ∨
      (s.pending = .reset :: rest ∧ t = resetBlock { s with pending := rest }) := by
  rcases step_cases h with ⟨-, rfl⟩ | ⟨rest, ⟨w, hp, hw⟩ | hwrite | ⟨r, rfl⟩ | hreset⟩
  · exact .inl ⟨rfl, .inl ⟨rfl, rfl⟩⟩
  · rcases issue_cases hw with ⟨i, hd, hs, hc, rfl⟩ | ⟨i, -, -, hc, rfl⟩ | ⟨e, -, -, rfl⟩ | ⟨-, -, rfl⟩
    · rw [errorCode_with_pending] at hc
      rw [← encode_of_decode hd] at hp
      exact .inr ⟨rest, .inl ⟨i, hp, hs, hc, effect_with_pending i s rest⟩⟩
    · exact .inl ⟨rfl, .inr (erring_code hc)⟩
    · exact .inl ⟨rfl, .inr (by simp)⟩
    · exact .inl ⟨rfl, .inl ⟨rfl, rfl⟩⟩
  · exact .inr ⟨rest, .inr (.inl hwrite)⟩
  · exact .inl ⟨rfl, .inl ⟨rfl, rfl⟩⟩
  · exact .inr ⟨rest, .inr (.inr hreset)⟩

/-! ### The invariant -/

/-- The invariant says nothing of the host's actions. -/
theorem State.Inv.with_pending {s : State} (h : s.Inv) (p : List HostAction) : { s with pending := p }.Inv :=
  ⟨h.memSize_pos, h.mem_wf, h.table, h.sum_a, h.sum_b, h.err_le, h.errinfo_zero⟩

theorem State.Inv.onlyRecords {s t : State} (h : s.Inv) (hr : s.OnlyRecords t) : t.Inv where
  memSize_pos := hr.M ▸ h.memSize_pos
  mem_wf := hr.M ▸ h.mem_wf
  table hv := by rw [hr.T]; exact h.table (hr.TV ▸ hv)
  sum_a := hr.A ▸ h.sum_a
  sum_b := hr.B ▸ h.sum_b
  err_le := by
    rcases hr.record with ⟨he, -⟩ | ⟨-, hle⟩
    · exact he ▸ h.err_le
    · exact hle
  errinfo_zero h0 := by
    rcases hr.record with ⟨he, hi⟩ | ⟨hne, -⟩
    · rw [hi]; exact h.errinfo_zero (he ▸ h0)
    · exact absurd h0 hne

/-- A command that raises no error keeps the invariant. -/
theorem State.Inv.effect {s : State} (h : s.Inv) {i : Instr} (hc : errorCode s i = 0) : (effect i s).Inv := by
  have hm := effect_within i s
  have hsums := effect_sums_le i ⟨h.sum_a, h.sum_b⟩
  refine ⟨hm.size ▸ h.memSize_pos, hm.wf h.mem_wf (writeRegion_le i hc), ?table, hsums.1, hsums.2, ?err, ?info⟩
  case table =>
    rcases effect_table i s with ⟨hT, hTV⟩ | ⟨hT, -, -⟩
    · rw [hT, hTV]; exact h.table
    · rw [hT]; exact fun _ => ensureTable_T s h.table
  case err =>
    rcases effect_record i s with ⟨he, -⟩ | ⟨he, -⟩
    · exact he ▸ h.err_le
    · rw [he]; decide
  case info =>
    rcases effect_record i s with ⟨he, hi⟩ | ⟨-, hi⟩
    · rw [he, hi]; exact h.errinfo_zero
    · exact fun _ => hi

/-- A byte that the host writes inside `M` keeps the invariant. -/
theorem State.Inv.write {s : State} (h : s.Inv) {a : Nat} (ha : a < s.M.size.val) (b : Byte) :
    { s with M := s.M.write a b }.Inv :=
  ⟨h.memSize_pos, Memory.wf_write h.mem_wf ha b, h.table, h.sum_a, h.sum_b, h.err_le, h.errinfo_zero⟩

/-- A reset establishes the invariant, given that `M` is not empty (10_state.md R37). -/
theorem inv_resetBlock {s : State} (h : 0 < s.M.size.val) : (resetBlock s).Inv :=
  ⟨h, s.M.wf_afterReset, nofun, by simp, by simp, by simp, fun _ => rfl⟩

/-- Settles O14: the invariant is kept by each of the changes that a step can make. -/
theorem stepKeepsInvariant : Obligations.StepKeepsInvariant := by
  intro s t hs h
  rcases step_changes h with hr | ⟨rest, ⟨i, -, -, hc, rfl⟩ | ⟨a, b, -, ha, rfl⟩ | ⟨-, rfl⟩⟩
  · exact hs.onlyRecords hr
  · exact (hs.effect hc).with_pending rest
  · exact (hs.write ha b).with_pending rest
  · exact inv_resetBlock hs.memSize_pos

/-! ### The table while `TV = 0` -/

/-- `t'` is `t` but for `T`, and with a valid table it is `t` itself. -/
structure State.EqButT (t t' : State) : Prop where
  frame : t' = { t with T := t'.T }
  valid : t.TV = true → t' = t

/-- Two outcomes that no reading of an invalid `T` tells apart. -/
structure UnseenT (o o' : Host.Outcome State Fault Refusal) : Prop where
  next : ∀ t, o = .next t → ∃ t', o' = .next t' ∧ t.EqButT t'
  fault : ∀ f, o = .fault f → o' = .fault f

theorem State.EqButT.refl (t : State) : t.EqButT t := ⟨rfl, fun _ => rfl⟩

/-- With `TV = 0` the contents of `T` are free. -/
theorem State.EqButT.of_invalid {t t' : State} (h : t.TV = false) (ht : t' = { t with T := t'.T }) : t.EqButT t' :=
  ⟨ht, fun hv => by rw [h] at hv; cases hv⟩

theorem UnseenT.of_eqButT {t t' : State} (h : t.EqButT t') : UnseenT (.next t) (.next t') :=
  ⟨fun _ e => by cases e; exact ⟨t', rfl, h⟩, nofun⟩

theorem UnseenT.of_invalid {t t' : State} (h : t.TV = false) (ht : t' = { t with T := t'.T }) :
    UnseenT (.next t) (.next t') := .of_eqButT (.of_invalid h ht)

theorem errorCode_with_T (i : Instr) (s : State) (T' : Vector Word 256) :
    errorCode { s with T := T' } i = errorCode s i := by cases i <;> rfl

/-- `EnsureTable` overwrites an invalid `T` (40_checksum.md R111). -/
theorem ensureTable_with_T {s : State} (h : s.TV = false) (T' : Vector Word 256) :
    ensureTable { s with T := T' } = ensureTable s := by simp [ensureTable, h]

/-- No CSR shows `T`. -/
theorem csrValue_with_T (s : State) (T' : Vector Word 256) : csrValue { s with T := T' } = csrValue s := by
  funext k; cases k <;> rfl

/-- The four commands that read `T` build it first, the others leave it alone (10_state.md R34). -/
theorem effect_eqButT (i : Instr) {s : State} (h : s.TV = false) (T' : Vector Word 256) :
    (effect i s).EqButT (effect i { s with T := T' }) := by
  have hT := ensureTable_with_T h T'
  cases i with
  | crcinit => simp only [effect, hT]; exact .refl _
  | crctab rd rs1 => simp only [effect, hT]; exact .refl _
  | crc32 rd rs1 rs2 => simp only [effect, hT]; exact .refl _
  | chunk rd rs1 rs2 rs3 rs4 => simp only [effect, hT]; exact .refl _
  | csrr rd csr => simp only [effect, csrValue_with_T]; exact .of_invalid h rfl
  | csrw csr rs1 => rw [effect_csrw, effect_csrw]; split_ifs <;> exact .of_invalid h rfl
  | _ => exact .of_invalid h rfl

theorem exec_unseenT (i : Instr) {s : State} (h : s.TV = false) (T' : Vector Word 256) :
    UnseenT (exec i s) (exec i { s with T := T' }) := by
  rw [exec_eq, exec_eq i { s with T := T' }, errorCode_with_T i s T']
  split
  · exact .of_eqButT (effect_eqButT i h T')
  · exact .of_invalid h rfl

theorem issue_unseenT (w : Word) {s : State} (h : s.TV = false) (T' : Vector Word 256) :
    UnseenT (issue w s) (issue w { s with T := T' }) := by
  have hf : State.failStop { s with T := T' } = s.failStop := rfl
  unfold issue
  rw [hf]
  split
  · split
    · exact exec_unseenT .clrerr h T'
    · exact .of_invalid h rfl
  · split
    · exact exec_unseenT _ h T'
    · exact .of_invalid h rfl

theorem perform_unseenT (a : HostAction) {s : State} (h : s.TV = false) (T' : Vector Word 256) :
    UnseenT (perform a s) (perform a { s with T := T' }) := by
  cases a with
  | issue w => exact issue_unseenT w h T'
  | writeMem a b =>
    simp only [perform, hostWriteMem]
    split
    · exact .of_invalid h rfl
    · exact ⟨nofun, fun _ e => e⟩
  | readMem a =>
    simp only [perform, hostReadMem]
    split
    · exact .of_invalid h rfl
    · exact ⟨nofun, fun _ e => e⟩
  | readReg i => exact .of_invalid h rfl
  | readCsr k => simp only [perform, csrValue_with_T]; exact .of_invalid h rfl
  | reset => exact .of_invalid rfl rfl

theorem step_unseenT {s : State} (h : s.TV = false) (T' : Vector Word 256) :
    UnseenT (step s) (step { s with T := T' }) := by
  by_cases hp : s.pending = []
  · have hs' : step { s with T := T' } = .next { s with T := T' } := step_nil hp
    rw [step_nil hp, hs']
    exact .of_invalid h rfl
  · obtain ⟨a, rest, hp⟩ := List.exists_cons_of_ne_nil hp
    have hs' : step { s with T := T' } = perform a { s with T := T', pending := rest } := step_cons hp
    rw [step_cons hp, hs']
    exact perform_unseenT a (s := { s with pending := rest }) h T'

/-- Settles O20: every host action, and every command among them, builds `T` before it reads it or does not read it. -/
theorem unbuiltTableIsInvisible : Obligations.UnbuiltTableIsInvisible := by
  intro s T' h
  obtain ⟨hnext, hfault⟩ := step_unseenT h T'
  refine ⟨fun t ht => ?_, hfault⟩
  obtain ⟨t', ht', hframe, hvalid⟩ := hnext t ht
  exact ⟨t', ht', hframe, hvalid⟩

/-! ### Who writes what -/

/-- Settles O17: of the changes that a step can make, only the effect of `CSRW` and a reset touch the configuration. -/
theorem configurationWrittenByCsrwOnly : Obligations.ConfigurationWrittenByCsrwOnly := by
  intro s t h hne
  rcases step_changes h with hr | ⟨rest, ⟨i, hp, hs, -, rfl⟩ | ⟨a, b, -, -, rfl⟩ | ⟨hp, -⟩⟩
  · simp [hr.HIATTR, hr.BANK] at hne
  · by_cases hi : ∃ csr r, i = .csrw csr r
    · obtain ⟨csr, r, rfl⟩ := hi
      exact ⟨rest, .inr ⟨csr, r, hp, hs.resolve_right nofun⟩⟩
    · obtain ⟨h1, h2⟩ := effect_config i s (fun csr r e => hi ⟨csr, r, e⟩)
      simp [h1, h2] at hne
  · simp at hne
  · exact ⟨rest, .inl hp⟩

/-- Settles O18: of the changes that a step can make, only the effects of three commands and a reset touch the sums. -/
theorem sumsWrittenByAdlerCommandsOnly : Obligations.SumsWrittenByAdlerCommandsOnly := by
  intro s t h hne
  rcases step_changes h with hr | ⟨rest, ⟨i, hp, hs, -, rfl⟩ | ⟨a, b, -, -, rfl⟩ | ⟨hp, -⟩⟩
  · simp [hr.A, hr.B] at hne
  · by_cases h1 : i = .adlinit
    · subst h1
      exact ⟨rest, .inr ⟨hs.resolve_right nofun, .inl hp⟩⟩
    by_cases h2 : ∃ p q, i = .adlupd p q
    · obtain ⟨p, q, rfl⟩ := h2
      exact ⟨rest, .inr ⟨hs.resolve_right nofun, .inr (.inl ⟨p, q, hp⟩)⟩⟩
    by_cases h3 : ∃ d p q r u, i = .zframe d p q r u
    · obtain ⟨d, p, q, r, u, rfl⟩ := h3
      exact ⟨rest, .inr ⟨hs.resolve_right nofun, .inr (.inr ⟨d, p, q, r, u, hp⟩)⟩⟩
    obtain ⟨hA, hB⟩ := effect_sums i s h1 (fun p q e => h2 ⟨p, q, e⟩) (fun d p q r u e => h3 ⟨d, p, q, r, u, e⟩)
    simp [hA, hB] at hne
  · simp at hne
  · exact ⟨rest, .inl hp⟩

/-- A valid table is not built again (40_checksum.md R111). -/
theorem ensureTable_of_valid {s : State} (h : s.TV = true) : ensureTable s = s := by simp [ensureTable, h]

/-- An invalid table is built (40_checksum.md R111). -/
theorem ensureTable_T_of_invalid {s : State} (h : s.TV = false) : (ensureTable s).T = crcTable :=
  ensureTable_T s (by simp [h])

/-- Settles O19: but for a reset, a step leaves `T` and `TV` alone or is one of the four commands that call `EnsureTable`. -/
theorem tableBuiltOnce : Obligations.TableBuiltOnce := by
  intro s t h
  have unchanged {P : Prop} (hT : t.T = s.T) (hTV : t.TV = s.TV) :
      (s.TV = true → t.T = s.T ∧ t.TV = true) ∧ (s.TV = false → (t.TV = true ∨ t.T ≠ s.T) → P) :=
    ⟨fun hv => ⟨hT, hTV.trans hv⟩, fun hv hne => by simp [hT, hTV, hv] at hne⟩
  rcases step_changes h with hr | ⟨rest, ⟨i, hp, -, -, rfl⟩ | ⟨a, b, -, -, rfl⟩ | ⟨hp, -⟩⟩
  · exact .inr (unchanged hr.T hr.TV)
  · rcases effect_table i s with ⟨hT, hTV⟩ | ⟨hT, hTV, hi⟩
    · exact .inr (unchanged hT hTV)
    · refine .inr ⟨fun hv => ⟨hT.trans (by rw [ensureTable_of_valid hv]), hTV⟩,
        fun hv _ => ⟨hTV, hT.trans (ensureTable_T_of_invalid hv), rest, ?_⟩⟩
      rcases hi with rfl | ⟨d, p, rfl⟩ | ⟨d, p, q, rfl⟩ | ⟨d, p, q, r, u, rfl⟩
      · exact .inl hp
      · exact .inr (.inl ⟨d, p, hp⟩)
      · exact .inr (.inr (.inl ⟨d, p, q, hp⟩))
      · exact .inr (.inr (.inr ⟨d, p, q, r, u, hp⟩))
  · exact .inr (unchanged rfl rfl)
  · exact .inl ⟨rest, hp⟩

/-- Settles O21: no change that a step can make touches `MEMSIZE`, and only the six writers, the host's write and a reset
touch `M`. -/
theorem memoryWrittenByWritersOnly : Obligations.MemoryWrittenByWritersOnly := by
  intro s t h
  rcases step_changes h with hr | ⟨rest, ⟨i, hp, -, -, rfl⟩ | ⟨a, b, hp, -, rfl⟩ | ⟨hp, rfl⟩⟩
  · exact ⟨by rw [hr.M], fun hne => absurd hr.M hne⟩
  · refine ⟨(effect_within i s).size, fun hne => ⟨rest, .inr (.inr ⟨i, hp, ?_⟩)⟩⟩
    by_contra hi
    push Not at hi
    exact hne (effect_M_eq i s hi.1 hi.2)
  · exact ⟨rfl, fun _ => ⟨rest, .inr (.inl ⟨a, b, hp⟩)⟩⟩
  · exact ⟨rfl, fun _ => ⟨rest, .inl hp⟩⟩

/-! ### Operands -/

/-- Settles O22: an effect leaves every register but its destination, and an error leaves them all. -/
theorem onlyDestinationRegisterWritten : Obligations.OnlyDestinationRegisterWritten := by
  intro i s t r h
  rcases exec_cases h with ⟨-, rfl⟩ | ⟨-, rfl⟩
  · exact ⟨effect_readX i s, fun h0 hne => absurd (effect_ERR i h0) hne⟩
  · exact ⟨fun _ => readX_erring s _ _ r, fun _ _ => readX_erring s _ _ r⟩

/-- `u` is `t` but for registers, and agrees with it on the register `rd`, if there is one. -/
structure State.EqButX (t u : State) (rd : Option Reg) : Prop where
  frame : u = { t with x := u.x }
  dest : ∀ r, rd = some r → readX u r = readX t r

theorem State.EqButX.writeX {t u : State} (h : u = { t with x := u.x }) (rd : Reg) (v : Word) :
    (writeX t rd v).EqButX (writeX u rd v) (some rd) := by
  refine ⟨by rw [h]; rfl, fun r hr => ?_⟩
  cases hr
  rw [readX_writeX_same, readX_writeX_same]

theorem State.EqButX.of_none {t u : State} (h : u = { t with x := u.x }) : t.EqButX u none := ⟨h, nofun⟩

/-- No CSR shows a register. -/
theorem csrValue_with_x (s : State) (y : Vector Word 16) : csrValue { s with x := y } = csrValue s := by
  funext k; cases k <;> rfl

theorem ensureTable_with_x (s : State) (y : Vector Word 16) :
    ensureTable { s with x := y } = { ensureTable s with x := y } := by unfold ensureTable; split <;> rfl

/-- The error condition of a command reads its sources only. -/
theorem errorCode_with_x (i : Instr) (s : State) (y : Vector Word 16)
    (hy : ∀ r ∈ sourcesOf i, readX { s with x := y } r = readX s r) :
    errorCode { s with x := y } i = errorCode s i := by
  cases i <;> simp only [sourcesOf, List.forall_mem_cons] at hy <;> simp only [errorCode, boundsCode, hy]

/-- The effect of a command reads its sources only. -/
theorem effect_with_x (i : Instr) (s : State) (y : Vector Word 16)
    (hy : ∀ r ∈ sourcesOf i, readX { s with x := y } r = readX s r) :
    (effect i s).EqButX (effect i { s with x := y }) (destOf i) := by
  cases i
  all_goals simp only [sourcesOf, List.forall_mem_cons, List.not_mem_nil, false_implies, implies_true, and_true] at hy
  case nop | clrerr | adlinit => exact .of_none rfl
  case crcinit => exact .of_none (by simp only [effect, ensureTable_with_x])
  case csrw csr rs1 =>
    rw [effect_csrw, effect_csrw, hy]
    split_ifs <;> exact .of_none rfl
  case adlupd | put16le | put16be | put32be =>
    simp only [effect, srcNat, hy]
    exact .of_none rfl
  case li rd _ | adlget rd => exact .writeX rfl rd _
  case csrr rd csr =>
    simp only [effect, csrValue_with_x]
    exact .writeX rfl rd _
  case lih rd _ | palpack rd _ _ _ _ | zframe rd _ _ _ _ =>
    simp only [effect, srcNat, hy]
    exact .writeX rfl rd _
  case crctab rd _ | crc32 rd _ _ | chunk rd _ _ _ _ =>
    simp only [effect, srcNat, hy, ensureTable_with_x]
    exact .writeX rfl rd _

/-- Settles O23: with equal sources the error condition, the error record and the effect are the same but for registers. -/
theorem onlySourceRegistersRead : Obligations.OnlySourceRegistersRead := by
  intro i s t y h0 hy h
  have hu := exec_eq i { s with x := y }
  rw [errorCode_with_x i s y hy] at hu
  rcases exec_cases h with ⟨hc, rfl⟩ | ⟨hc, rfl⟩
  · rw [if_pos hc] at hu
    obtain ⟨hframe, hdest⟩ := effect_with_x i s y hy
    exact ⟨_, hu, hframe, fun _ => hdest⟩
  · rw [if_neg hc] at hu
    exact ⟨_, hu, rfl, fun he => absurd he (erring_code hc).1⟩

/-! ### Reset -/

/-- Settles O15: nothing is listed in `M`, `TV` is 0 and every other value is a literal of the table. -/
theorem resetHasInvariant : Obligations.ResetHasInvariant :=
  ⟨by decide, Memory.wf_powerOn _, nofun, by decide, by decide, by decide, fun _ => rfl⟩

/-- A register file of zeros reads as zeros. -/
theorem readX_of_zeros {s : State} (h : s.x = Vector.replicate 16 0) (i : Reg) : readX s i = 0 := by
  simp [readX, h]

/-- Settles O16: the host's `Reset` is `resetBlock`, whose fields are those of the table, and so are those of
`State.reset`. -/
theorem resetValues : Obligations.ResetValues :=
  ⟨fun s => ⟨resetBlock s, rfl, readX_of_zeros rfl, rfl, rfl, rfl, rfl, rfl, rfl, rfl, rfl, s.M.wf_afterReset, rfl,
    rfl⟩, readX_of_zeros rfl, rfl, rfl, rfl, rfl, rfl, rfl, rfl⟩

end Sys2Proof.Machine

/-! PROOFS. The statements of 20_memory.md. -/

namespace Sys2Proof.Machine

/-! ### The host's accesses to `M` -/

section HostMem
variable {s : State} {a : Nat}

theorem perform_writeMem_inside (h : a < s.M.size.val) (b : Byte) :
    perform (.writeMem a b) s = .next (withM s (s.M.write a b)) := if_pos h

theorem perform_writeMem_outside (h : s.M.size.val ≤ a) (b : Byte) :
    perform (.writeMem a b) s = .fault (.hostOutsideM a) := if_neg (Nat.not_lt.mpr h)

theorem perform_readMem_inside (h : a < s.M.size.val) :
    perform (.readMem a) s = .next (answer s (.mem a (s.M.read a))) := if_pos h

theorem perform_readMem_outside (h : s.M.size.val ≤ a) :
    perform (.readMem a) s = .fault (.hostOutsideM a) := if_neg (Nat.not_lt.mpr h)

end HostMem

/-! ### What has a next state -/

/-- In fail-stop the word of `CLRERR` is executed (60_exceptions.md R206). -/
theorem issue_clrerr_of_failStop {s : State} {w : Word} (hs : s.ERR ≠ 0) (hd : decode w = .ok .clrerr) :
    issue w s = .next (clearError s) := by
  simp [issue, failStop_true hs, hd, exec, execClrerr]

/-- In fail-stop every other word changes nothing (60_exceptions.md R206). -/
theorem issue_other_of_failStop {s : State} {w : Word} (hs : s.ERR ≠ 0) (hd : decode w ≠ .ok .clrerr) :
    issue w s = .next s := by
  rw [issue, if_pos (failStop_true hs)]
  split
  · contradiction
  · rfl

/-- Every word completes: it is executed, raises `IllegalCommand` or is ignored in fail-stop (20_memory.md R60). -/
theorem issue_completes (w : Word) (s : State) : ∃ t, issue w s = .next t := by
  by_cases hs : s.ERR = 0
  · cases hd : decode w with
    | ok i => exact ⟨_, (issue_ok hs hd).trans (exec_eq i s)⟩
    | error e => exact ⟨_, issue_error hs hd⟩
  · by_cases hd : decode w = .ok .clrerr
    · exact ⟨_, issue_clrerr_of_failStop hs hd⟩
    · exact ⟨_, issue_other_of_failStop hs hd⟩

/-- A host action has a next state, or it is an access outside `M` (20_memory.md R62). -/
theorem perform_completes_or_outsideM (h : HostAction) (s : State) :
    (∃ t, perform h s = .next t) ∨ ∃ a, s.M.size.val ≤ a ∧ perform h s = .fault (.hostOutsideM a) ∧
      (h = .readMem a ∨ ∃ b, h = .writeMem a b) := by
  cases h with
  | issue w => exact .inl (issue_completes w s)
  | writeMem a b =>
    rcases Nat.lt_or_ge a s.M.size.val with ha | ha
    · exact .inl ⟨_, perform_writeMem_inside ha b⟩
    · exact .inr ⟨a, ha, perform_writeMem_outside ha b, .inr ⟨b, rfl⟩⟩
  | readMem a =>
    rcases Nat.lt_or_ge a s.M.size.val with ha | ha
    · exact .inl ⟨_, perform_readMem_inside ha⟩
    · exact .inr ⟨a, ha, perform_readMem_outside ha, .inl rfl⟩
  | readReg i => exact .inl ⟨_, rfl⟩
  | readCsr k => exact .inl ⟨_, rfl⟩
  | reset => exact .inl ⟨_, rfl⟩

/-- Settles O13: a step performs the first pending action, and only the host's accesses outside `M` have no next state. -/
theorem stopsOnlyOnHostAccessOutsideM : Obligations.StopsOnlyOnHostAccessOutsideM := by
  refine ⟨issue_completes, fun s => ?_⟩
  cases hp : s.pending with
  | nil => exact .inl ⟨s, step_nil hp⟩
  | cons h rest =>
    rw [step_cons hp]
    rcases perform_completes_or_outsideM h { s with pending := rest } with hnext | ⟨a, ha, hfault, hact⟩
    · exact .inl hnext
    · refine .inr ⟨a, rest, ha, hfault, ?_⟩
      rcases hact with rfl | ⟨b, rfl⟩
      · exact .inl rfl
      · exact .inr ⟨b, rfl⟩

/-! ### One step of the host -/

/-- Settles O8: a step performs the first pending action, which outside fail-stop executes the word it issues. -/
theorem stepRunsIssuedCommand : Obligations.StepRunsIssuedCommand :=
  fun _ => ⟨fun _ _ _ hp hs hd => (step_cons hp).trans (issue_ok hs hd), fun _ _ => step_cons, step_nil⟩

/-! ### The host's reads and writes -/

/-- Every CSR is the CSR of its number (10_state.md R26). -/
@[simp] theorem csrOfNumber_csrNumber (k : Csr) : csrOfNumber (csrNumber k).toNat = some k := by cases k <;> rfl

/-- `CSRR` of a CSR that exists never raises (46_control.md R193). -/
theorem exec_csrr_csrNumber (rd : Reg) (k : Csr) (s : State) :
    exec (.csrr rd (csrNumber k)) s = .next (writeX s rd (csrValue s k)) := by simp [exec, execCsrr]

/-- Settles O46: inside `M` the host reads or writes the one byte, outside it has no move, and the value of a CSR is the one
that `CSRR` writes to its destination. -/
theorem hostPortActions : Obligations.HostPortActions := by
  refine fun s => ⟨fun a b ha => ⟨⟨_, perform_writeMem_inside ha b, ?frame, ?byte⟩, perform_readMem_inside ha⟩,
    fun a b ha => ⟨perform_writeMem_outside ha b, perform_readMem_outside ha⟩, fun i => rfl, fun k v hv => ?csr⟩
  case frame => exact onlyM_withM (s.M.within_write a b)
  case byte => exact s.M.read_write_same a b
  case csr =>
    rw [exec_csrr_csrNumber] at hv
    cases hv
    rw [readX_writeX_same]
    rfl

end Sys2Proof.Machine

/-! PROOFS. The statements of 30_encoding.md. -/

/-! ### The command table -/

namespace Sys2Proof

/-- A row of the command table is known by its opcode (30_encoding.md R86). -/
theorem row_eq_of_opField {r r' : Row} (hr : r ∈ rows) (hr' : r' ∈ rows)
    (h : opField r.pattern = opField r'.pattern) : r = r' :=
  List.inj_on_of_nodup_map (List.pairwise_map.mpr rows_pairwise) hr hr' h

/-- The 18 opcodes (30_encoding.md R86). -/
theorem rows_opcodes : rows.map (fun r => opField r.pattern) =
    [0x00, 0x01, 0x02, 0x03, 0x04, 0x05, 0x10, 0x11, 0x12, 0x18, 0x19, 0x1A, 0x20, 0x21, 0x22, 0x30, 0x40, 0x50] := by decide

/-- A word whose opcode is in no row matches no row (30_encoding.md R88). -/
theorem no_match_of_unknown_opcode {w : Word} (h : opField w ∉ rows.map (fun r => opField r.pattern)) :
    ∀ r ∈ rows, w &&& r.mask ≠ r.pattern :=
  fun r hr hm => h (List.mem_map.mpr ⟨r, hr, (opField_of_match hr hm).symm⟩)

/-- A word that has the opcode of a row and does not match it, as when a must-be-zero bit is set, matches no row
(30_encoding.md R89). -/
theorem no_match_of_own_row_mismatch {w : Word} {r : Row} (hr : r ∈ rows) (ho : opField w = opField r.pattern)
    (hne : w &&& r.mask ≠ r.pattern) : ∀ r' ∈ rows, w &&& r'.mask ≠ r'.pattern := by
  intro r' hr' hm
  obtain rfl : r' = r := row_eq_of_opField hr' hr ((opField_of_match hr' hm).symm.trans ho)
  exact hne hm

/-- Every command's word matches a row that builds the command back. -/
theorem encode_matchesRow (i : Instr) : Laws.MatchesRow.Statement i := by
  cases i with
  | nop => exact Laws.MatchesRow.nop
  | li rd imm => exact Laws.MatchesRow.li rd imm
  | lih rd imm => exact Laws.MatchesRow.lih rd imm
  | csrr rd csr => exact Laws.MatchesRow.csrr rd csr
  | csrw csr rs1 => exact Laws.MatchesRow.csrw csr rs1
  | clrerr => exact Laws.MatchesRow.clrerr
  | crcinit => exact Laws.MatchesRow.crcinit
  | crctab rd rs1 => exact Laws.MatchesRow.crctab rd rs1
  | crc32 rd rs1 rs2 => exact Laws.MatchesRow.crc32 rd rs1 rs2
  | adlinit => exact Laws.MatchesRow.adlinit
  | adlupd rs1 rs2 => exact Laws.MatchesRow.adlupd rs1 rs2
  | adlget rd => exact Laws.MatchesRow.adlget rd
  | put16le rs1 rs2 => exact Laws.MatchesRow.put16le rs1 rs2
  | put16be rs1 rs2 => exact Laws.MatchesRow.put16be rs1 rs2
  | put32be rs1 rs2 => exact Laws.MatchesRow.put32be rs1 rs2
  | palpack rd rs1 rs2 rs3 rs4 => exact Laws.MatchesRow.palpack rd rs1 rs2 rs3 rs4
  | zframe rd rs1 rs2 rs3 rs4 => exact Laws.MatchesRow.zframe rd rs1 rs2 rs3 rs4
  | chunk rd rs1 rs2 rs3 rs4 => exact Laws.MatchesRow.chunk rd rs1 rs2 rs3 rs4

/-- A command's word decodes to the command (30_encoding.md R81, R86). -/
@[simp] theorem decode_encode (i : Instr) : decode (encode i) = .ok i := by
  obtain ⟨r, hr, hm, hb⟩ := encode_matchesRow i
  rw [decode_of_match hr hm, hb]

end Sys2Proof

namespace Sys2Proof.Machine

/-! ### The decoder -/

/-- Settles O1: the word of a command matches a row, and that row builds the command from the word's fields. -/
theorem decodeOfEncode : Obligations.DecodeOfEncode := decode_encode

/-- Settles O2: a word decodes through a row that it matches, and such a word is the word of the row's command. -/
theorem encodeOfDecode : Obligations.EncodeOfDecode := fun _ _ => encode_of_decode

/-- Settles O3: rows that match one word share its opcode, and the opcode tells the rows apart. -/
theorem decodeFollowsTheTable : Obligations.DecodeFollowsTheTable := by
  refine fun w => ⟨fun r hr => decode_of_match hr, decode_of_no_match, fun r hr r' hr' h h' => ?_⟩
  have ho : opField r.pattern = opField r'.pattern := (opField_of_match hr h).symm.trans (opField_of_match hr' h')
  rw [row_eq_of_opField hr hr' ho]

/-- Settles O7: each of the ten words is the word of its command. -/
theorem encodingExamples : Obligations.EncodingExamples :=
  ⟨decode_encode .nop, decode_encode (.li 3 8), decode_encode (.lih 12 0x8950), decode_encode (.csrw 2 1),
    decode_encode (.crc32 3 1 2), decode_encode (.adlget 3), decode_encode (.put16be 1 2),
    decode_encode (.palpack 5 1 2 3 4), decode_encode (.zframe 10 5 6 7 8), decode_encode (.chunk 6 6 3 7 8)⟩

/-! ### Illegal words -/

/-- A word that matches no row, issued outside fail-stop, raises `IllegalCommand` (30_encoding.md R81). -/
theorem issue_of_no_match {s : State} {w : Word} (hs : s.ERR = 0) (h : ∀ r ∈ rows, w &&& r.mask ≠ r.pattern) :
    issue w s = .next (s.erring 1 w) := by
  obtain ⟨e, hd⟩ := decode_of_no_match h
  exact issue_error hs hd

/-- Settles O4: a word that matches a row has the row's opcode, which is one of the 18. -/
theorem unknownOpcodeRaises : Obligations.UnknownOpcodeRaises := by
  intro s w hs ho
  rw [← rows_opcodes] at ho
  have hno := no_match_of_unknown_opcode ho
  exact ⟨hno, issue_of_no_match hs hno⟩

/-- The example words of R89 have the opcodes of `NOP`, `ADLGET` and `LI` and do not match those rows. -/
theorem unused_field_examples {w : Word} (h : w = 0x00000001 ∨ w = 0x1A100010 ∨ w = 0x01110005) :
    ∃ r ∈ rows, opField w = opField r.pattern ∧ w &&& r.mask ≠ r.pattern := by
  rcases h with rfl | rfl | rfl
  · exact ⟨rows[0], List.getElem_mem _, by decide⟩
  · exact ⟨rows[11], List.getElem_mem _, by decide⟩
  · exact ⟨rows[1], List.getElem_mem _, by decide⟩

/-- Settles O5: the only row that a word with a row's opcode could match is that row. -/
theorem unusedFieldNonZeroRaises : Obligations.UnusedFieldNonZeroRaises := by
  intro s w hs h
  obtain ⟨r, hr, ho, hne⟩ := h.elim id unused_field_examples
  have hno := no_match_of_own_row_mismatch hr ho hne
  exact ⟨hno, issue_of_no_match hs hno⟩

/-! ### Bad CSR numbers -/

/-- A command whose error code is 1 records `IllegalCommand` and its word (60_exceptions.md R201, R204). -/
theorem exec_of_errorCode_one {i : Instr} {s : State} (h : errorCode s i = 1) :
    exec i s = .next (s.erring 1 (encode i)) := by
  rw [exec_eq, h]
  rfl

/-- Settles O6: the words decode for every CSR number, and the error comes from the error condition of the command. -/
theorem badCsrNumberRaises : Obligations.BadCsrNumberRaises :=
  fun _ _ _ => ⟨decode_encode _, decode_encode _, fun h => exec_of_errorCode_one (if_pos h),
    fun h => exec_of_errorCode_one (if_pos h)⟩

/-! ### `LI32` -/

/-- Settles O47: the two commands raise no error, and their effects in turn are one write of `v` to `x[rd]`. -/
theorem li32LoadsConstant : Obligations.Li32LoadsConstant := by
  intro s rd v rest hs hp
  have hrun := run_issueAll decode_encode (li32 rd v) rest s hs hp (noErrors_li32 rd v s)
  rw [effects_li32] at hrun
  exact ⟨_, hrun, readX_writeX_same s rd v, rfl, fun r hr => readX_writeX_other s rd r v hr⟩

end Sys2Proof.Machine

/-! PROOFS. The statements of 40_checksum.md. -/

namespace Sys2Proof.Machine

/-! ### The CRC table -/

/-- The table at an index is eight bit-serial steps from it (40_checksum.md R110). -/
theorem tableAt_crcTable_serial (n : Byte) : tableAt crcTable n = crcSerialBit^[8] (n.setWidth 32) :=
  (tableAt_crcTable n).trans (tableEntry_eq_serial n)

/-- Settles O32: an entry is an iterate of the bit-serial step, which is linear over xor, as is widening the index. -/
theorem crcTableIsLinear : Obligations.CrcTableIsLinear := by
  intro n m
  rw [tableAt_crcTable_serial, tableAt_crcTable_serial, tableAt_crcTable_serial, BitVec.setWidth_xor,
    crcSerialBit_iterate_xor]

/-- Under the invariant the table that `EnsureTable` leaves is the table of R110. -/
theorem State.Inv.ensureTable_T {s : State} (h : s.Inv) : (ensureTable s).T = crcTable :=
  Machine.ensureTable_T s h.table

/-- Settles O30: `CRCINIT` is `EnsureTable`, which leaves the table of R110. -/
theorem crcinitBuildsTable : Obligations.CrcinitBuildsTable := by
  refine fun s hs => ⟨ensureTable s, rfl, fun n => ?_, ensureTable_eq s, ensureTable_of_valid⟩
  rw [hs.ensureTable_T, tableAt_crcTable_serial]

/-! ### A result register beside the table -/

/-- A command that ensures the table and writes `x[rd]` changes `T` and `TV` besides registers, and nothing else. -/
theorem writeX_ensureTable_frame (s : State) (rd : Reg) (v : Word) :
    writeX (ensureTable s) rd v =
      { s with x := (writeX (ensureTable s) rd v).x, T := (writeX (ensureTable s) rd v).T, TV := true } := by
  rw [writeX_x, ensureTable_x]
  exact congrArg (fun t => writeX t rd v) (ensureTable_eq s)

theorem otherX_writeX_ensureTable (s : State) (rd : Reg) (v : Word) : s.otherX (writeX (ensureTable s) rd v) rd :=
  fun r hr => (readX_writeX_other _ rd r v hr).trans (readX_ensureTable s r)

/-- The low byte of a word, widened again, is its value mod 256. -/
theorem setWidth_low_byte (v : Word) : (v.setWidth 8).setWidth 32 = BitVec.ofNat 32 (v.toNat % 256) :=
  BitVec.eq_of_toNat_eq (by simp)

/-- Settles O31: the entry is read from the table that `EnsureTable` leaves. -/
theorem crctabReadsEntry : Obligations.CrctabReadsEntry := by
  refine fun s rd rs1 hs => ⟨_, rfl, ?_, writeX_ensureTable_frame s rd _, otherX_writeX_ensureTable s rd _⟩
  rw [readX_writeX_same, hs.ensureTable_T, tableAt_crcTable_serial, setWidth_low_byte]

/-! ### Commands that read one region of `M` -/

section OneRegion
variable {i : Instr} {s : State} {a n : Nat} (hi : errorCode s i = boundsCode s [(a, n)])
include hi

/-- A command whose only check is for one region has its effect when the region lies in `M` (20_memory.md R58). -/
theorem exec_of_region_inside (h : a + n ≤ s.M.size.val) : exec i s = .next (effect i s) := by
  rw [exec_eq, hi, boundsCode_one, if_pos ((inRange_iff s a n).mpr h), if_pos rfl]

/-- A command whose only check is for one region records `Bounds` otherwise (20_memory.md R58; 60_exceptions.md R201). -/
theorem exec_of_region_outside (h : s.M.size.val < a + n) : exec i s = .next (s.erring 2 (encode i)) := by
  have hr : ¬ inRange s a n = true := fun hr => Nat.not_lt.mpr ((inRange_iff s a n).mp hr) h
  rw [exec_eq, hi, boundsCode_one, if_neg hr]
  rfl

end OneRegion

/-- Settles O33: the table engine on the table of R110 is the bit-serial engine. -/
theorem crc32OfRegion : Obligations.Crc32OfRegion := by
  refine fun s rd rs1 rs2 hs => ⟨fun h => ⟨_, exec_of_region_inside rfl h, ?_, writeX_ensureTable_frame s rd _,
    otherX_writeX_ensureTable s rd _⟩, exec_of_region_outside rfl⟩
  rw [effect, readX_writeX_same, hs.ensureTable_T, crc32Bytes_eq_serial, Memory.readBytes_eq_map, srcNat, srcNat]

/-! ### The Adler sums -/

/-- Settles O34: `ADLGET` concatenates the two sums, so the value is `B` above 16 bits of `A`. -/
theorem adlerSeedAndGet : Obligations.AdlerSeedAndGet := by
  refine fun s rd => ⟨rfl, rfl, _, rfl, ?_, onlyX_writeX s rd _⟩
  rw [readX_writeX_same, BitVec.toNat_append, ← Nat.shiftLeft_add_eq_or_of_lt s.A.isLt, Nat.shiftLeft_eq]

/-- Settles O35: the closed form of the sums holds of any bytes, so of those of the region. -/
theorem adlupdClosedForm : Obligations.AdlupdClosedForm := by
  refine fun s rs1 rs2 hs => ⟨fun h => ⟨_, exec_of_region_inside rfl h, rfl, ?_⟩, exec_of_region_outside rfl⟩
  have hsum := adlerBytes_map (srcNat s rs2) (fun k => s.M.read (srcNat s rs1 + k)) (s.A, s.B) ⟨hs.sum_a, hs.sum_b⟩
  rw [← Memory.readBytes_eq_map] at hsum
  exact hsum

/-- Feeding the region of `p'`, `q'` after the adjacent one of `p`, `q` has the effect of feeding both at once
(40_checksum.md R121). -/
theorem effect_adlupd_adlupd {s : State} {a p q p' q' u : Reg} (ha : srcNat s a = srcNat s p)
    (hp' : srcNat s p' = srcNat s p + srcNat s q) (hu : srcNat s u = srcNat s q + srcNat s q') :
    effect (.adlupd p' q') (effect (.adlupd p q) s) = effect (.adlupd a u) s := by
  have hsum : adlerBytes (s.A, s.B) (s.M.readBytes (srcNat s a) (srcNat s u)) =
      adlerBytes (adlerBytes (s.A, s.B) (s.M.readBytes (srcNat s p) (srcNat s q)))
        (s.M.readBytes (srcNat s p') (srcNat s q')) := by
    rw [ha, hp', hu, Memory.readBytes_add, adlerBytes_append]
  exact congrArg (withSums s) hsum.symm

/-- Settles O36: both parts lie in `M` when the whole does, and feeding them in turn is feeding their concatenation. -/
theorem adlerIsIncremental : Obligations.AdlerIsIncremental := by
  intro s a p q p' q' u ha hp' hu h
  have hfirst : srcNat s p + srcNat s q ≤ s.M.size.val := by simp only [srcNat]; omega
  have hsecond : srcNat s p' + srcNat s q' ≤ s.M.size.val := by simp only [srcNat]; omega
  have hwhole : srcNat s a + srcNat s u ≤ s.M.size.val := by simp only [srcNat, ha]; exact h
  refine ⟨effect (.adlupd p q) s, effect (.adlupd a u) s, exec_of_region_inside rfl hfirst, ?_,
    exec_of_region_inside rfl hwhole⟩
  rw [← effect_adlupd_adlupd (congrArg BitVec.toNat ha) hp' hu]
  exact exec_of_region_inside (s := effect (.adlupd p q) s) rfl hsecond

end Sys2Proof.Machine

/-! PROOFS. The statements of 41_packer.md. -/

namespace Sys2Proof.Machine

/-- A field inside `M` is laid down byte by byte from `a`, and nothing but its addresses changes (41_packer.md R130). -/
theorem putField_writes (i : Instr) {a : Nat} {field : List Byte} {s : State} (h : a + field.length ≤ s.M.size.val) :
    ∃ t, putField i a field s = .next t ∧ s.onlyM t a field.length ∧
      ∀ k (hk : k < field.length), (t.M.read (a + k)).toNat = field[k].toNat :=
  ⟨withM s (s.M.writeBytes a field), putField_next i a field s h, onlyM_withM (s.M.within_writeBytes a field),
    fun k hk => congrArg BitVec.toNat (s.M.read_writeBytes_at a field k hk)⟩

theorem toNat_byteAt_zero (v : Word) : (byteAt v 0).toNat = v.toNat % 256 := by
  rw [toNat_byteAt, Nat.pow_zero, Nat.div_one]

/-- Settles O37: the field is the two low bytes of `x[rs2]`, byte 0 first. -/
theorem put16leWritesField : Obligations.Put16leWritesField := by
  refine fun s rs1 rs2 => ⟨rfl, fun h => ?_, putField_bounds _ _ (le16 (readX s rs2)) s⟩
  obtain ⟨t, hexec, hframe, hread⟩ := putField_writes (.put16le rs1 rs2) (field := le16 (readX s rs2)) h
  exact ⟨t, hexec, hframe, (hread 0 Nat.two_pos).trans (toNat_byteAt_zero _),
    (hread 1 Nat.one_lt_two).trans (toNat_byteAt _ 8)⟩

/-- Settles O38: the field is the two low bytes of `x[rs2]`, byte 1 first. -/
theorem put16beWritesField : Obligations.Put16beWritesField := by
  refine fun s rs1 rs2 => ⟨rfl, fun h => ?_, putField_bounds _ _ (be16 (readX s rs2)) s⟩
  obtain ⟨t, hexec, hframe, hread⟩ := putField_writes (.put16be rs1 rs2) (field := be16 (readX s rs2)) h
  exact ⟨t, hexec, hframe, (hread 0 Nat.two_pos).trans (toNat_byteAt _ 8),
    (hread 1 Nat.one_lt_two).trans (toNat_byteAt_zero _)⟩

/-- Settles O39: the field is the four bytes of `x[rs2]`, byte 3 first. -/
theorem put32beWritesField : Obligations.Put32beWritesField := by
  refine fun s rs1 rs2 => ⟨rfl, fun h => ?_, putField_bounds _ _ (be32 (readX s rs2)) s⟩
  obtain ⟨t, hexec, hframe, hread⟩ := putField_writes (.put32be rs1 rs2) (field := be32 (readX s rs2)) h
  exact ⟨t, hexec, hframe, fun k hk => (hread k hk).trans (getElem_be32 _ k hk)⟩

end Sys2Proof.Machine

/-! PROOFS. The statements of 42_palette.md. -/

namespace Sys2Proof.Machine

/-! ### A command's answer from its error code -/

/-- A command whose error code is 0 has its effect (60_exceptions.md R201). -/
theorem exec_of_errorCode_zero {i : Instr} {s : State} (h : errorCode s i = 0) : exec i s = .next (effect i s) := by
  rw [exec_eq, if_pos h]

/-- A command whose error code is not 0 records it with its word (60_exceptions.md R201, R204). -/
theorem exec_of_errorCode_ne_zero {i : Instr} {s : State} {c : Nat} (h : errorCode s i = c) (hc : c ≠ 0) :
    exec i s = .next (s.erring (BitVec.ofNat 8 c) (encode i)) := by
  rw [exec_eq, h, if_neg hc]

/-- Two regions that both lie in `M` raise nothing (20_memory.md R58). -/
theorem boundsCode_two_inside {s : State} {a n b k : Nat} (h : a + n ≤ s.M.size.val) (h' : b + k ≤ s.M.size.val) :
    boundsCode s [(a, n), (b, k)] = 0 :=
  boundsCode_zero (List.forall_mem_cons.mpr ⟨h, List.forall_mem_singleton.mpr h'⟩)

/-- Of two regions one that leaves `M` is enough for `Bounds` (20_memory.md R58). -/
theorem boundsCode_two_outside {s : State} {a n b k : Nat} (h : s.M.size.val < a + n ∨ s.M.size.val < b + k) :
    boundsCode s [(a, n), (b, k)] = 2 := by
  have hall : ¬ [(a, n), (b, k)].all (fun r => r.1 + r.2 ≤ s.M.size.val) := by
    simp only [List.all_cons, List.all_nil, Bool.and_true, Bool.and_eq_true, decide_eq_true_eq]
    omega
  exact if_neg hall

/-! ### The checks of `PALPACK` -/

section PalpackCode
variable {s : State} {rd rs1 rs2 rs3 rs4 : Reg}

/-- Check 1 comes before the others (42_palette.md R142). -/
theorem errorCode_palpack_length (h : srcNat s rs3 % 4 ≠ 0) : errorCode s (.palpack rd rs1 rs2 rs3 rs4) = 3 :=
  if_pos h

variable (hlen : srcNat s rs3 % 4 = 0)
include hlen

/-- Check 2 comes after check 1 (42_palette.md R142). -/
theorem errorCode_palpack_countRange (h : 256 < srcNat s rs4) : errorCode s (.palpack rd rs1 rs2 rs3 rs4) = 4 :=
  (if_neg (not_not.mpr hlen)).trans (if_pos h)

variable (hrange : srcNat s rs4 ≤ 256)
include hrange

/-- Check 3 comes after checks 1 and 2 (42_palette.md R142). -/
theorem errorCode_palpack_countFit (h : srcNat s rs3 < 4 * srcNat s rs4) :
    errorCode s (.palpack rd rs1 rs2 rs3 rs4) = 5 :=
  (if_neg (not_not.mpr hlen)).trans ((if_neg (Nat.not_lt.mpr hrange)).trans (if_pos h))

/-- Checks 4 and 5 decide when checks 1 to 3 pass (42_palette.md R142). -/
theorem errorCode_palpack_bounds (h : 4 * srcNat s rs4 ≤ srcNat s rs3) :
    errorCode s (.palpack rd rs1 rs2 rs3 rs4) =
      boundsCode s [(srcNat s rs2, srcNat s rs3), (srcNat s rs1, 3 * srcNat s rs4)] :=
  (if_neg (not_not.mpr hlen)).trans ((if_neg (Nat.not_lt.mpr hrange)).trans (if_neg (Nat.not_lt.mpr h)))

end PalpackCode

/-- Settles O41: the first check that fails is the error code, whatever the later ones say. -/
theorem palpackChecks : Obligations.PalpackChecks := by
  rintro s rd rs1 rs2 rs3 rs4 _ _ _ _ _ rfl rfl rfl rfl rfl
  refine ⟨fun hlen => ?length, fun hlen hrange => ?range, fun hlen hrange hfit => ?fit,
    fun hlen hrange hfit hout => ?bounds⟩
  case length => exact exec_of_errorCode_ne_zero (errorCode_palpack_length hlen) (by decide)
  case range => exact exec_of_errorCode_ne_zero (errorCode_palpack_countRange hlen hrange) (by decide)
  case fit => exact exec_of_errorCode_ne_zero (errorCode_palpack_countFit hlen hrange hfit) (by decide)
  case bounds =>
    exact exec_of_errorCode_ne_zero ((errorCode_palpack_bounds hlen hrange hfit).trans (boundsCode_two_outside hout))
      (by decide)

/-- Settles O40: the effect of `PALPACK` is `palPack` on `M` and `3 * count` in `x[rd]`, which is far below `2^32`. -/
theorem palpackRepacks : Obligations.PalpackRepacks := by
  rintro s rd rs1 rs2 rs3 rs4 dst src srclen count rfl rfl rfl rfl hlen hrange hfit hsrc hdst
  have hcode : errorCode s (.palpack rd rs1 rs2 rs3 rs4) = 0 :=
    (errorCode_palpack_bounds hlen hrange hfit).trans (boundsCode_two_inside hsrc hdst)
  refine ⟨effect (.palpack rd rs1 rs2 rs3 rs4) s, exec_of_errorCode_zero hcode, ?result, rfl, ?registers,
    ?outside, ?seen, ?plain⟩
  case result => exact readX_writeNat_toNat _ rd _ (by simp only [srcNat]; omega)
  case registers => exact otherX_writeNat s _ rd _ rfl
  case outside => exact sameOutside_of_within (palPack_within _ _ _ s.M)
  case seen => exact fun i hi => palPack_seen _ _ _ s.M hi
  case plain => exact fun hd i hi => palPack_read s.M hd hi

end Sys2Proof.Machine

/-! PROOFS. The statements of 43_zframe.md. -/

namespace Sys2Proof.Machine

/-! ### The checks of `ZFRAME` -/

section ZframeCode
variable {s : State} {rd rs1 rs2 rs3 rs4 : Reg}

/-- The width check comes first (43_zframe.md R152). -/
theorem errorCode_zframe_width (h : 65535 < srcNat s rs3) : errorCode s (.zframe rd rs1 rs2 rs3 rs4) = 6 :=
  if_pos h

variable (hwidth : srcNat s rs3 ≤ 65535)
include hwidth

/-- The bank check comes after the width check (43_zframe.md R153). -/
theorem errorCode_zframe_bank (h : s.HIATTR = true ∧ s.BANK = 0) : errorCode s (.zframe rd rs1 rs2 rs3 rs4) = 7 :=
  (if_neg (Nat.not_lt.mpr hwidth)).trans (if_pos h)

/-- The bounds checks decide when the other two pass (43_zframe.md R154). -/
theorem errorCode_zframe_bounds (h : ¬ (s.HIATTR = true ∧ s.BANK = 0)) :
    errorCode s (.zframe rd rs1 rs2 rs3 rs4) = boundsCode s
      [(srcNat s rs1, 6 + srcNat s rs4 * (srcNat s rs3 + 6)), (srcNat s rs2, srcNat s rs3 * srcNat s rs4)] :=
  (if_neg (Nat.not_lt.mpr hwidth)).trans (if_neg h)

/-- When no check fails `ZFRAME` has its effect (43_zframe.md R159). -/
theorem exec_zframe (h : ¬ (s.HIATTR = true ∧ s.BANK = 0))
    (hdst : srcNat s rs1 + (6 + srcNat s rs4 * (srcNat s rs3 + 6)) ≤ s.M.size.val)
    (hsrc : srcNat s rs2 + srcNat s rs3 * srcNat s rs4 ≤ s.M.size.val) :
    exec (.zframe rd rs1 rs2 rs3 rs4) s = .next (effect (.zframe rd rs1 rs2 rs3 rs4) s) :=
  exec_of_errorCode_zero ((errorCode_zframe_bounds hwidth h).trans (boundsCode_two_inside hdst hsrc))

end ZframeCode

/-- Settles O43: the first check that fails is the error code, whatever the later ones say. -/
theorem zframeChecks : Obligations.ZframeChecks := by
  rintro s rd rs1 rs2 rs3 rs4 _ _ _ _ _ rfl rfl rfl rfl rfl
  refine ⟨fun hwidth => ?width, fun hwidth hattr hbank => ?bank, fun hwidth hbank hout => ?bounds⟩
  case width => exact exec_of_errorCode_ne_zero (errorCode_zframe_width hwidth) (by decide)
  case bank => exact exec_of_errorCode_ne_zero (errorCode_zframe_bank hwidth ⟨hattr, hbank⟩) (by decide)
  case bounds =>
    exact exec_of_errorCode_ne_zero ((errorCode_zframe_bounds hwidth hbank).trans (boundsCode_two_outside hout))
      (by decide)

/-! ### The values of the bytes in a stream -/

/-- The second byte of a 16-bit value is its high byte. -/
theorem toNat_byteAt_eight {v : Word} (h : v.toNat < 65536) : (byteAt v 8).toNat = v.toNat / 256 :=
  (toNat_byteAt v 8).trans (Nat.mod_eq_of_lt (by omega))

/-- `LEN` (43_zframe.md R155, R162). -/
theorem toNat_blockLen (W : Nat) : (blockLen W).toNat = (W + 1) % 65536 := by
  rw [blockLen, BitVec.toNat_ofNat]
  omega

/-- A 16-bit value with all its bits flipped is its distance from the largest one. -/
theorem xor_65535 {n : Nat} (h : n < 65536) : n ^^^ 65535 = 65535 - n := by
  have hnot := congrArg BitVec.toNat (BitVec.xor_allOnes (x := BitVec.ofNat 16 n))
  rw [BitVec.toNat_xor, BitVec.toNat_not, BitVec.toNat_ofNat, Nat.mod_eq_of_lt h] at hnot
  exact hnot

/-- `NLEN` (43_zframe.md R155). -/
theorem toNat_blockLen_xor (W : Nat) : (blockLen W ^^^ 0xFFFF).toNat = 65535 - (W + 1) % 65536 := by
  rw [BitVec.toNat_xor, toNat_blockLen]
  exact xor_65535 (by omega)

/-- The bytes of a block header as numbers: the final flag, `LEN` and `NLEN` (43_zframe.md R155). -/
theorem toNat_getElem_blockHeader (W H y k : Nat) (hk : k < 5) : ((blockHeader W H y)[k]'hk).toNat =
    [if y + 1 = H then 1 else 0, (W + 1) % 65536 % 256, (W + 1) % 65536 / 256, (65535 - (W + 1) % 65536) % 256,
      (65535 - (W + 1) % 65536) / 256][k] := by
  have hlen := toNat_blockLen W
  have hnlen := toNat_blockLen_xor W
  match k, hk with
  | 0, _ => exact apply_ite BitVec.toNat _ _ _
  | 1, _ => exact (toNat_byteAt_zero _).trans (congrArg (· % 256) hlen)
  | 2, _ => exact (toNat_byteAt_eight (by omega)).trans (congrArg (· / 256) hlen)
  | 3, _ => exact (toNat_byteAt_zero _).trans (congrArg (· % 256) hnlen)
  | 4, _ => exact (toNat_byteAt_eight (by omega)).trans (congrArg (· / 256) hnlen)

/-- The low byte of a 16-bit sum (43_zframe.md R158). -/
theorem toNat_half_low (v : Half) : (byteAt (v.setWidth 32) 0).toNat = v.toNat % 256 := by
  rw [toNat_byteAt_zero, BitVec.toNat_setWidth_of_le (by decide)]

/-- The high byte of a 16-bit sum (43_zframe.md R158). -/
theorem toNat_half_high (v : Half) : (byteAt (v.setWidth 32) 8).toNat = v.toNat / 256 := by
  have hv : (v.setWidth 32).toNat = v.toNat := BitVec.toNat_setWidth_of_le (by decide)
  rw [toNat_byteAt_eight (hv.trans_lt v.isLt), hv]

/-- The bytes of a trailer as numbers: `B`, then `A` (43_zframe.md R158). -/
theorem toNat_getElem_zTrailer (ab : Half × Half) (k : Nat) (hk : k < 4) : ((zTrailer ab)[k]'hk).toNat =
    [ab.2.toNat / 256, ab.2.toNat % 256, ab.1.toNat / 256, ab.1.toNat % 256][k] :=
  match k, hk with
  | 0, _ => toNat_half_high _
  | 1, _ => toNat_half_low _
  | 2, _ => toNat_half_high _
  | 3, _ => toNat_half_low _

/-- The value of an emitted pixel (43_zframe.md R156). -/
theorem toNat_reducePixel (hiattr : Bool) (bank : Word) (v : Byte) :
    (reducePixel hiattr bank v).toNat = if hiattr = true then v.toNat % bank.toNat else v.toNat := by
  have hle := Nat.mod_le v.toNat bank.toNat
  rw [reducePixel, apply_ite BitVec.toNat, BitVec.toNat_ofNat, Nat.mod_eq_of_lt (by omega)]

/-! ### The finished stream -/

/-- `M` after a `ZFRAME` that completes: the rows, then the trailer (43_zframe.md R159). -/
def zframeMem (hiattr : Bool) (bank : Word) (dst src W H : Nat) (m : Memory) : Memory :=
  (frameRows hiattr bank dst src W H m).1.writeBytes (blockAddr dst W H)
    (zTrailer (frameRows hiattr bank dst src W H m).2)

theorem effect_zframe_M (rd rs1 rs2 rs3 rs4 : Reg) (s : State) : (effect (.zframe rd rs1 rs2 rs3 rs4) s).M =
    zframeMem s.HIATTR s.BANK (srcNat s rs1) (srcNat s rs2) (srcNat s rs3) (srcNat s rs4) s.M := rfl

section Stream
variable {hiattr : Bool} {bank : Word} {dst src W H : Nat} {m : Memory}

/-- The trailer leaves the bytes before it as the rows left them. -/
theorem zframeMem_read_before {a : Nat} (h : a < blockAddr dst W H) :
    (zframeMem hiattr bank dst src W H m).read a = (frameRows hiattr bank dst src W H m).1.read a :=
  Memory.read_writeBytes_other _ _ _ (.inl h)

/-- Every block ends where the trailer begins, or before. -/
theorem blockAddr_block_le {y : Nat} (hy : y < H) : blockAddr dst W y + (W + 6) ≤ blockAddr dst W H :=
  (blockAddr_succ dst W y).symm.trans_le (blockAddr_mono dst W hy)

/-- The zlib header of the finished stream (43_zframe.md R151). -/
theorem zframeMem_zlibHeader : (zframeMem hiattr bank dst src W H m).read dst = 0x78 ∧
    (zframeMem hiattr bank dst src W H m).read (dst + 1) = 0x01 := by
  obtain ⟨-, hcmf, hflg, -⟩ := frameRows_spec hiattr bank dst src W H m
  have hge := blockAddr_ge dst W H
  exact ⟨(zframeMem_read_before (by omega)).trans hcmf, (zframeMem_read_before (by omega)).trans hflg⟩

/-- The block header of row `y` in the finished stream (43_zframe.md R155). -/
theorem zframeMem_blockHeader {y : Nat} (hy : y < H) (k : Nat) (hk : k < 5) :
    ((zframeMem hiattr bank dst src W H m).read (blockAddr dst W y + k)).toNat =
      [if y + 1 = H then 1 else 0, (W + 1) % 65536 % 256, (W + 1) % 65536 / 256, (65535 - (W + 1) % 65536) % 256,
        (65535 - (W + 1) % 65536) / 256][k] := by
  obtain ⟨-, -, -, hrow, -⟩ := frameRows_spec hiattr bank dst src W H m
  have hle := blockAddr_block_le (dst := dst) (W := W) hy
  rw [zframeMem_read_before (by omega), (hrow y hy).1 k hk, toNat_getElem_blockHeader]

/-- The filter byte of row `y` in the finished stream (43_zframe.md R156). -/
theorem zframeMem_filter {y : Nat} (hy : y < H) :
    (zframeMem hiattr bank dst src W H m).read (blockAddr dst W y + 5) = filterNone := by
  obtain ⟨-, -, -, hrow, -⟩ := frameRows_spec hiattr bank dst src W H m
  have hle := blockAddr_block_le (dst := dst) (W := W) hy
  exact (zframeMem_read_before (by omega)).trans (hrow y hy).2

/-- The sums are those of the filter and pixel bytes of the finished stream (43_zframe.md R157). -/
theorem frameRows_sums_eq : (frameRows hiattr bank dst src W H m).2 =
    adlerBytes adlerSeed (frameBytes (zframeMem hiattr bank dst src W H m) dst W H) := by
  obtain ⟨-, -, -, -, hsums, -⟩ := frameRows_spec hiattr bank dst src W H m
  rw [frameBytes_congr fun a _ ha => zframeMem_read_before ha]
  exact hsums

/-- The trailer of the finished stream: `B`, then `A` (43_zframe.md R158). -/
theorem zframeMem_trailer (k : Nat) (hk : k < 4) :
    ((zframeMem hiattr bank dst src W H m).read (blockAddr dst W H + k)).toNat =
      [(frameRows hiattr bank dst src W H m).2.2.toNat / 256, (frameRows hiattr bank dst src W H m).2.2.toNat % 256,
        (frameRows hiattr bank dst src W H m).2.1.toNat / 256,
        (frameRows hiattr bank dst src W H m).2.1.toNat % 256][k] := by
  rw [zframeMem, Memory.read_writeBytes_at _ _ (zTrailer _) k hk, toNat_getElem_zTrailer]

/-- Pixel `k` of row `y` in the finished stream, made from the source byte that is seen when all stream bytes before it
have been written (20_memory.md R69; 43_zframe.md R156). -/
theorem zframeMem_pixel {y k : Nat} (hy : y < H) (hk : k < W) :
    (zframeMem hiattr bank dst src W H m).read (blockAddr dst W y + 6 + k) = reducePixel hiattr bank
      (m.seen (zframeMem hiattr bank dst src W H m) dst (blockAddr dst W y + 6 + k) (src + y * W + k)) := by
  obtain ⟨-, -, -, -, -, hpixel⟩ := frameRows_spec hiattr bank dst src W H m
  have hle := blockAddr_block_le (dst := dst) (W := W) hy
  rw [zframeMem_read_before (by omega), Memory.seen_congr fun b _ hb => zframeMem_read_before (by omega)]
  exact hpixel y k hy hk

/-- The same with disjoint regions: the source byte is the one from before (20_memory.md R69). -/
theorem zframeMem_pixel_disjoint (hd : disjoint src (W * H) dst (6 + H * (W + 6))) {y k : Nat} (hy : y < H)
    (hk : k < W) : (zframeMem hiattr bank dst src W H m).read (blockAddr dst W y + 6 + k) =
      reducePixel hiattr bank (m.read (src + y * W + k)) := by
  have hle := blockAddr_block_le (dst := dst) (W := W) hy
  exact (zframeMem_read_before (by omega)).trans (frameRows_pixel m hd hy hk)

end Stream

/-- Settles O42: each part of the stream stands in `M` as the rows and the trailer left it, and the values of the
header and trailer bytes are those of `LEN`, `NLEN`, `B` and `A`. -/
theorem zframeWritesStream : Obligations.ZframeWritesStream := by
  rintro s rd rs1 rs2 rs3 rs4 dst src W H rfl rfl rfl rfl hwidth hbank hdst hsrc
  refine ⟨effect (.zframe rd rs1 rs2 rs3 rs4) s, exec_zframe hwidth hbank hdst hsrc, ?result, rfl, ?registers,
    ?outside, zframeMem_zlibHeader.1, zframeMem_zlibHeader.2, fun y hy => ?block, frameRows_sums_eq,
    ?bHigh, ?bLow, ?aHigh, ?aLow, fun y k hy hk => ?pixel, fun hd y k hy hk => ?plain⟩
  case result => exact readX_writeNat_toNat _ rd _ (by simp only [zLen, srcNat]; omega)
  case registers => exact otherX_writeNat s _ rd _ rfl
  case outside => exact sameOutside_of_within (frame_within _ _ _ _ _ _ s.M)
  case block =>
    exact ⟨zframeMem_blockHeader hy 0 (by decide), zframeMem_blockHeader hy 1 (by decide),
      zframeMem_blockHeader hy 2 (by decide), zframeMem_blockHeader hy 3 (by decide),
      zframeMem_blockHeader hy 4 (by decide), zframeMem_filter hy⟩
  case bHigh => exact zframeMem_trailer 0 (by decide)
  case bLow => exact zframeMem_trailer 1 (by decide)
  case aHigh => exact zframeMem_trailer 2 (by decide)
  case aLow => exact zframeMem_trailer 3 (by decide)
  case pixel => exact (congrArg BitVec.toNat (zframeMem_pixel hy hk)).trans (toNat_reducePixel _ _ _)
  case plain => exact (congrArg BitVec.toNat (zframeMem_pixel_disjoint hd hy hk)).trans (toNat_reducePixel _ _ _)

/-! ### Decoding the stored blocks -/

/-- The two bytes of a 16-bit little-endian field add up to its value (41_packer.md R131). -/
theorem le16_value {v : Word} (h : v.toNat < 65536) : (byteAt v 0).toNat + 256 * (byteAt v 8).toNat = v.toNat := by
  rw [toNat_byteAt_zero, toNat_byteAt_eight h]
  exact Nat.mod_add_div v.toNat 256

/-- A decoder takes one well-formed block off the front of a stream, and goes on unless it is the last
(43_zframe.md R160(d)). -/
theorem inflateStored_cons {flag l0 l1 n0 n1 : Byte} {content : List Byte} (hflag : flag = 0 ∨ flag = 1)
    (hlen : l0.toNat + 256 * l1.toNat = content.length)
    (hnlen : content.length + (n0.toNat + 256 * n1.toNat) = 65535) (n : Nat) (rest : List Byte) :
    inflateStored (n + 1) (flag :: l0 :: l1 :: n0 :: n1 :: (content ++ rest)) =
      if flag = 1 then some ([content], rest) else (inflateStored n rest).map fun r => (content :: r.1, r.2) := by
  have hok : (flag = 0 ∨ flag = 1) ∧ content.length + (n0.toNat + 256 * n1.toNat) = 65535 ∧
      content.length ≤ (content ++ rest).length := ⟨hflag, hnlen, by simp⟩
  simp only [inflateStored, hlen, if_pos hok, List.take_left, List.drop_left]

/-- The block of row `y` is well-formed when its length fits `LEN` (43_zframe.md R155, R160(d), R162). -/
theorem inflateStored_block {W H y : Nat} {row : List Byte} (hrow : row.length = W + 1) (hW : W ≤ 65534) (n : Nat)
    (rest : List Byte) : inflateStored (n + 1) (blockHeader W H y ++ row ++ rest) =
      if y + 1 = H then some ([row], rest) else (inflateStored n rest).map fun r => (row :: r.1, r.2) := by
  have hmod : (W + 1) % 65536 = row.length := by omega
  have hlen : (blockLen W).toNat = row.length := (toNat_blockLen W).trans hmod
  have hnlen : (blockLen W ^^^ 0xFFFF).toNat = 65535 - row.length := by rw [toNat_blockLen_xor, hmod]
  refine (inflateStored_cons (flag := if y + 1 = H then 1 else 0) (by split <;> decide)
    ((le16_value (by omega)).trans hlen) (by rw [le16_value (by omega)]; omega) n rest).trans ?_
  by_cases hlast : y + 1 = H <;> simp [hlast]

/-- A decoder of stored blocks gives back the rows from row `y` to the last, and what follows them
(43_zframe.md R160(d)). -/
theorem inflateStored_blocks {W H : Nat} {row : Nat → List Byte} (hrow : ∀ y, (row y).length = W + 1)
    (hW : W ≤ 65534) (rest : List Byte) (n y : Nat) (hn : 1 ≤ n) (hy : y + n = H) :
    inflateStored n ((List.range' y n).flatMap (fun y => blockHeader W H y ++ row y) ++ rest) =
      some ((List.range' y n).map row, rest) := by
  induction n generalizing y with
  | zero => omega
  | succ n ih =>
    rw [List.range'_succ, List.flatMap_cons, List.append_assoc, inflateStored_block (hrow y) hW]
    cases n with
    | zero => rw [if_pos hy]; rfl
    | succ n => rw [if_neg (by omega), ih (y + 1) (by omega) (by omega)]; rfl

/-- With `HIATTR = 0` a row is emitted as it stands in the source (43_zframe.md R156). -/
theorem scanline_plain (bank : Word) (m : Memory) (src W y : Nat) :
    scanline false bank m src W y = 0 :: m.readBytes (src + y * W) W :=
  congrArg (List.cons _) (Memory.readBytes_eq_map m (src + y * W) W).symm

/-- With disjoint regions the finished stream after its zlib header is the blocks of the rows, then the trailer
(43_zframe.md R151). -/
theorem zframeMem_blocks {hiattr : Bool} {bank : Word} {dst src W H : Nat} {m : Memory}
    (hd : disjoint src (W * H) dst (6 + H * (W + 6))) :
    let t := zframeMem hiattr bank dst src W H m
    t.readBytes (dst + 2) (H * (W + 6) + 4) =
      (List.range H).flatMap (fun y => blockHeader W H y ++ scanline hiattr bank m src W y) ++
        t.readBytes (blockAddr dst W H) 4 := by
  intro t
  have hstream : t.readBytes dst (zLen W H) = zlibStream hiattr bank m src W H := frame_bytes m hd
  have htrailer : t.readBytes (blockAddr dst W H) 4 = zTrailer (frameRows hiattr bank dst src W H m).2 :=
    readBytes_field _ _ _ 4 rfl
  have hlen : zLen W H = 2 + (H * (W + 6) + 4) := by rw [zLen]; omega
  rw [hlen, Memory.readBytes_add, zlibStream, List.append_assoc] at hstream
  rw [htrailer, frame_sums m hd]
  exact List.append_inj_right hstream (Memory.length_readBytes t dst 2)

/-- A decoder run over the finished stream after its zlib header gives the source rows and leaves the trailer
(43_zframe.md R160(d)). -/
theorem inflateStored_zframeMem {bank : Word} {dst src W H : Nat} {m : Memory} (hW : W ≤ 65534) (hH : 1 ≤ H)
    (hd : disjoint src (W * H) dst (6 + H * (W + 6))) :
    let t := zframeMem false bank dst src W H m
    inflateStored H (t.readBytes (dst + 2) (H * (W + 6) + 4)) =
      some ((List.range H).map (fun y => (0 : Byte) :: m.readBytes (src + y * W) W),
        t.readBytes (blockAddr dst W H) 4) := by
  intro t
  rw [zframeMem_blocks hd, List.range_eq_range',
    inflateStored_blocks (length_scanline false bank m src W) hW _ H 0 hH (Nat.zero_add H),
    funext (scanline_plain bank m src W)]

/-- Settles O44: with `HIATTR = 0` `ZFRAME` passes its checks, and its stream decodes. -/
theorem zframeStreamInflates : Obligations.ZframeStreamInflates := by
  rintro s rd rs1 rs2 rs3 rs4 dst src W H rfl rfl rfl rfl hwidth hheight hattr hdst hsrc hd
  have hbank : ¬ (s.HIATTR = true ∧ s.BANK = 0) := fun ⟨htrue, _⟩ => Bool.false_ne_true (hattr.symm.trans htrue)
  refine ⟨effect (.zframe rd rs1 rs2 rs3 rs4) s, exec_zframe (Nat.le_succ_of_le hwidth) hbank hdst hsrc, ?_⟩
  rw [effect_zframe_M, hattr]
  exact inflateStored_zframeMem hwidth hheight hd

end Sys2Proof.Machine

/-! PROOFS. The statements of 44_chunk.md. -/

namespace Sys2Proof.Machine

/-! ### The bytes of a finished chunk -/

section Chunk
variable {T : Vector Word 256} {dst : Nat} {ty : Word} {src n : Nat} {m : Memory} {k : Nat} (hk : k < 4)
include hk

/-- The length field of a finished chunk (44_chunk.md R171); a length of 32 bits fits it. -/
theorem chunkBytes_length (hn : n < 2 ^ 32) :
    ((chunkBytes T dst ty src n m).read (dst + k)).toNat = n / 256 ^ (3 - k) % 256 := by
  rw [chunkBytes_read_body _ _ _ _ _ _ (by omega), (chunkBody_head dst ty src n m hk).1, getElem_be32,
    BitVec.toNat_ofNat, Nat.mod_eq_of_lt hn]

/-- The type tag of a finished chunk (44_chunk.md R171; 20_memory.md R52). -/
theorem chunkBytes_type :
    ((chunkBytes T dst ty src n m).read (dst + 4 + k)).toNat = ty.toNat / 256 ^ (3 - k) % 256 := by
  rw [chunkBytes_read_body _ _ _ _ _ _ (by omega), (chunkBody_head dst ty src n m hk).2, getElem_be32]

/-- The CRC field of a finished chunk, when the table is that of R110: the bit-serial CRC-32 of the chunk's own type and
payload bytes (44_chunk.md R172). -/
theorem chunkBytes_crc_serial :
    ((chunkBytes crcTable dst ty src n m).read (dst + 8 + n + k)).toNat =
      (crcSerial ((chunkBytes crcTable dst ty src n m).readBytes (dst + 4) (4 + n))).toNat / 256 ^ (3 - k) % 256 := by
  have hfield := chunkBytes_crc crcTable dst ty src n m
  have hbyte := List.getElem_of_eq hfield ((Memory.length_readBytes _ _ 4).symm ▸ hk)
  rw [Memory.getElem_readBytes] at hbyte
  rw [← crc32Bytes_eq_serial]
  exact (congrArg BitVec.toNat hbyte).trans (getElem_be32 _ k hk)

end Chunk

/-! ### The effect of `CHUNK` -/

/-- A command that ensures the table, writes `M` and a result register changes `T` and `TV` besides them, and nothing
else. -/
theorem writeNat_withM_ensureTable_frame (s : State) (m : Memory) (rd : Reg) (v : Nat) :
    writeNat (withM (ensureTable s) m) rd v =
      { s with
        x := (writeNat (withM (ensureTable s) m) rd v).x
        M := m
        T := (ensureTable s).T
        TV := true } := by
  rw [writeNat_x, withM_x, ensureTable_x]
  exact congrArg (fun t => writeNat (withM t m) rd v) (ensureTable_eq s)

/-- Under the invariant the chunk that `CHUNK` leaves in `M` is built on the table of R110. -/
theorem effect_chunk_M {s : State} (hs : s.Inv) (rd rs1 rs2 rs3 rs4 : Reg) :
    (effect (.chunk rd rs1 rs2 rs3 rs4) s).M =
      chunkBytes crcTable (srcNat s rs1) (readX s rs2) (srcNat s rs3) (srcNat s rs4) s.M :=
  congrArg (chunkBytes · _ _ _ _ _) hs.ensureTable_T

/-- Settles O45: the effect of `CHUNK` is `chunkBytes` on `M` with the table ensured, and the address behind the chunk in
`x[rd]`, which is at most `MEMSIZE`. -/
theorem chunkAssembles : Obligations.ChunkAssembles := by
  rintro s rd rs1 rs2 rs3 rs4 dst src n hs rfl rfl rfl
  refine ⟨fun hdst hsrc => ?inside, fun hout => ?outside⟩
  case outside => exact exec_of_errorCode_ne_zero (boundsCode_two_outside hout) (by decide)
  case inside =>
    refine ⟨effect (.chunk rd rs1 rs2 rs3 rs4) s, exec_of_errorCode_zero (boundsCode_two_inside hdst hsrc), ?result,
      writeNat_withM_ensureTable_frame s _ rd _, otherX_writeNat s _ rd _ (ensureTable_x s), ?_⟩
    case result =>
      have hsize := s.M.size.isLt
      exact readX_writeNat_toNat _ rd _ (by simp only [srcNat]; omega)
    rw [effect_chunk_M hs]
    exact ⟨sameOutside_of_within (chunkBytes_within _ _ _ _ _ s.M), fun k hk => chunkBytes_length hk (readX s rs4).isLt,
      fun k hk => chunkBytes_type hk, fun k hk => chunkBytes_crc_serial hk,
      fun k hk => chunkBytes_seen _ _ _ _ _ s.M hk, fun hd k hk => chunkBytes_payload _ _ s.M hd hk⟩

end Sys2Proof.Machine

/-! PROOFS. The statements of 45_encode_sequence.md. -/

namespace Sys2Proof.Machine

/-! ### The expansion -/

/-- The 64 commands of R181. -/
def encodeCommands (e : EncodeArgs) : List Instr :=
  encodePalette e ++ encodeRows e ++ encodeSignature e ++ encodeHeader e ++ encodeChunks e

/-- An expansion that is not refused is the commands of R181, and its constants fit 32 bits (45_encode_sequence.md R180). -/
theorem encodeSeq_eq_some {e : EncodeArgs} {l : List Instr} (h : encodeSeq e = some l) :
    (e.OUT.toNat + 8 < 2 ^ 32 ∧ e.SCR.toNat + 784 < 2 ^ 32) ∧ encodeCommands e = l := by
  rw [encodeSeq, Option.ite_none_right_eq_some] at h
  exact ⟨h.1, Option.some.inj h.2⟩

theorem encodeSeq_eq_none_iff (e : EncodeArgs) :
    encodeSeq e = none ↔ 2 ^ 32 ≤ e.OUT.toNat + 8 ∨ 2 ^ 32 ≤ e.SCR.toNat + 784 := by
  rw [encodeSeq, ite_eq_right_iff]
  simp only [reduceCtorEq, imp_false]
  omega

theorem length_encodeCommands (e : EncodeArgs) : (encodeCommands e).length = 64 := rfl

/-- None of the commands is a `CSRR` or a `CSRW`, the only two with a constraint (30_encoding.md R90). -/
theorem wellFormed_encodeCommands (e : EncodeArgs) : ∀ i ∈ encodeCommands e, i.wellFormed = true :=
  List.all_eq_true.mp rfl

/-- Settles O48: the two bounds of R180 are the refusal, and otherwise the list is that of R181. -/
theorem encodeExpands : Obligations.EncodeExpands := by
  refine fun e => ⟨encodeSeq_eq_none_iff e, fun l hl => ?_⟩
  obtain ⟨-, rfl⟩ := encodeSeq_eq_some hl
  exact ⟨length_encodeCommands e, wellFormed_encodeCommands e⟩

/-! ### Regions that share no byte (20_memory.md R69) -/

theorem disjoint.symm {a n b k : Nat} (h : disjoint a n b k) : disjoint b k a n := fun c hc => h c hc.symm

/-- Parts of disjoint regions are disjoint. -/
theorem disjoint.mono {a n b k a' n' b' k' : Nat} (h : disjoint a n b k) (ha : a ≤ a') (hn : a' + n' ≤ a + n)
    (hb : b ≤ b') (hk : b' + k' ≤ b + k) : disjoint a' n' b' k' := fun c _ => h c (by omega)

/-- A region that shares no byte with the one that changed is read as before. -/
theorem Memory.Within.readBytes_of_disjoint {m m' : Memory} {a n b k : Nat} (h : m.Within m' a n)
    (hd : disjoint b k a n) : m'.readBytes b k = m.readBytes b k :=
  Memory.readBytes_congr fun i hi => h.other (b + i) (by have := hd (b + i); omega)

/-! ### Bytes laid down one after the other -/

/-- `m'` is `m` with the bytes `bs` from `a` on, and nothing else changed. -/
structure Memory.LaysDown (m m' : Memory) (a : Nat) (bs : List Byte) : Prop where
  within : m.Within m' a bs.length
  bytes : m'.readBytes a bs.length = bs

/-- Bytes that a memory holds already. -/
theorem Memory.LaysDown.of_readBytes {m : Memory} {a n : Nat} {bs : List Byte} (h : m.readBytes a n = bs) :
    m.LaysDown m a bs := by
  subst h
  exact ⟨.refl m a _, by rw [Memory.length_readBytes]⟩

/-- `CHUNK` directly behind bytes that are laid down extends them by the chunk of the payload that stood at the source
before any of them was laid down, when the source lies apart from all that is laid down (44_chunk.md R170, R173). -/
theorem Memory.LaysDown.chunk {m m' : Memory} {a k dst src n : Nat} {bs payload : List Byte} (h : m.LaysDown m' a bs)
    (ty : Word) (hdst : a + bs.length = dst) (hk : dst + (12 + n) ≤ a + k) (hd : disjoint src n a k)
    (hpay : m.readBytes src n = payload) :
    m.LaysDown (chunkBytes crcTable dst ty src n m') a (bs ++ pngChunk ty payload) := by
  have hsrc : m'.readBytes src n = payload :=
    (h.within.readBytes_of_disjoint (hd.mono (Nat.le_refl _) (Nat.le_refl _) (Nat.le_refl _) (by omega))).trans hpay
  have hchunk := chunk_bytes ty m' (hd.mono (Nat.le_refl _) (Nat.le_refl _) (show a ≤ dst by omega) hk)
  have hwithin := chunkBytes_within crcTable dst ty src n m'
  have hlen : (bs ++ pngChunk ty payload).length = bs.length + (12 + n) := by
    rw [List.length_append, length_pngChunk, ← hpay, Memory.length_readBytes]
  refine ⟨?within, ?bytes⟩ <;> rw [hlen]
  case within => exact (h.within.mono (by omega) (by omega)).trans (hwithin.mono (by omega) (by omega))
  case bytes => rw [Memory.readBytes_add, hwithin.readBytes (by omega), h.bytes, hdst, hchunk, hsrc]

/-! ### The memory after the steps of `ENCODE` -/

/-- `M` after steps 1 and 2 of R181: the packed palette and the zlib stream stand in scratch. -/
def encodeRowsMem (s : State) (e : EncodeArgs) : Memory :=
  zframeMem s.HIATTR s.BANK (e.SCR.toNat + 784) e.PIX.toNat e.W.toNat e.H.toNat
    (palPack (e.SCR.toNat + 16) e.PAL.toNat e.COUNT.toNat s.M)

/-- `M` after steps 3 and 4 of R181: the signature stands at `OUT` and the IHDR payload in scratch. -/
def encodeStagedMem (s : State) (e : EncodeArgs) : Memory :=
  headerMem (signatureMem (encodeRowsMem s e) e.OUT.toNat) e.SCR.toNat e.W e.H

/-- `M` after step 5 of R181. -/
def encodeMem (s : State) (e : EncodeArgs) : Memory :=
  chunksMem (e.OUT.toNat + 8) e.SCR.toNat (3 * e.COUNT.toNat) (zLen e.W.toNat e.H.toNat) (encodeStagedMem s e)

theorem zframeMem_within (hiattr : Bool) (bank : Word) (dst src W H : Nat) (m : Memory) :
    m.Within (zframeMem hiattr bank dst src W H m) dst (zLen W H) := frame_within hiattr bank dst src W H m

theorem encodeStagedMem_header (s : State) (e : EncodeArgs) : (encodeStagedMem s e).readBytes e.SCR.toNat 13 =
    be32 e.W ++ be32 e.H ++ [0x08, 0x03, 0x00, 0x00, 0x00] := readBytes_header _ _ _ _

/-- The file is `Total` bytes long (R183). -/
theorem length_pngFile (s : State) (e : EncodeArgs) : (pngFile s e).length = encodeTotal e := by
  simp only [pngFile, List.length_append, length_pngChunk, length_packedPalette, length_zlibStream, length_be32,
    List.length_cons, List.length_nil, encodeTotal]
  omega

section Ready
variable {s : State} {e : EncodeArgs} (hr : EncodeReady s e)
include hr

/-- The packed palette fits between the IHDR payload and the zlib stream (R181). -/
theorem EncodeReady.palette_le : 3 * e.COUNT.toNat ≤ 768 := Nat.mul_le_mul_left 3 hr.count

/-- The zlib stream fits in scratch (R180, R181). -/
theorem EncodeReady.pixels_stream :
    disjoint e.PIX.toNat (e.W.toNat * e.H.toNat) (e.SCR.toNat + 784) (zLen e.W.toNat e.H.toNat) :=
  hr.pix_scr.mono (Nat.le_refl _) (Nat.le_refl _) (by omega) (by rw [encodeScratch]; omega)

/-- A part of scratch shares no byte with the output. -/
theorem EncodeReady.scratch_output {a n : Nat} (ha : e.SCR.toNat ≤ a)
    (hn : a + n ≤ e.SCR.toNat + 784 + zLen e.W.toNat e.H.toNat) : disjoint a n e.OUT.toNat (encodeTotal e) :=
  hr.out_scr.symm.mono ha (by rw [encodeScratch]; omega) (Nat.le_refl _) (Nat.le_refl _)

/-- A part of scratch shares no byte with the signature. -/
theorem EncodeReady.scratch_signature {a n : Nat} (ha : e.SCR.toNat ≤ a)
    (hn : a + n ≤ e.SCR.toNat + 784 + zLen e.W.toNat e.H.toNat) : disjoint a n e.OUT.toNat 8 :=
  (hr.scratch_output ha hn).mono (Nat.le_refl _) (Nat.le_refl _) (Nat.le_refl _) (by rw [encodeTotal]; omega)

/-- Step 1 leaves the pixels as they were. -/
theorem EncodeReady.pixels_kept (a : Nat) (h1 : e.PIX.toNat ≤ a) (h2 : a < e.PIX.toNat + e.W.toNat * e.H.toNat) :
    (palPack (e.SCR.toNat + 16) e.PAL.toNat e.COUNT.toNat s.M).read a = s.M.read a := by
  have hd := hr.pix_scr a
  have hc := hr.palette_le
  have hz : encodeScratch e = 784 + zLen e.W.toNat e.H.toNat := rfl
  exact (palPack_within _ _ _ s.M).other a (by omega)

theorem encodeRowsMem_within : s.M.Within (encodeRowsMem s e) e.SCR.toNat (encodeScratch e) := by
  have hc := hr.palette_le
  have hz : encodeScratch e = 784 + zLen e.W.toNat e.H.toNat := rfl
  exact ((palPack_within _ _ _ s.M).mono (by omega) (by omega)).trans
    ((zframeMem_within _ _ _ _ _ _ _).mono (by omega) (by omega))

theorem encodeRowsMem_palette : (encodeRowsMem s e).readBytes (e.SCR.toNat + 16) (3 * e.COUNT.toNat) =
    packedPalette s.M e.PAL.toNat e.COUNT.toNat := by
  have hc := hr.palette_le
  have hd : disjoint e.PAL.toNat (4 * e.COUNT.toNat) (e.SCR.toNat + 16) (3 * e.COUNT.toNat) :=
    hr.pal_scr.mono (Nat.le_refl _) (Nat.add_le_add_left hr.fit _) (by omega) (by rw [encodeScratch]; omega)
  exact ((zframeMem_within _ _ _ _ _ _ _).readBytes (by omega)).trans (palPack_bytes s.M (.inl hd))

theorem encodeRowsMem_stream : (encodeRowsMem s e).readBytes (e.SCR.toNat + 784) (zLen e.W.toNat e.H.toNat) =
    zlibStream s.HIATTR s.BANK s.M e.PIX.toNat e.W.toNat e.H.toNat :=
  (frame_bytes _ hr.pixels_stream).trans (zlibStream_congr hr.pixels_kept)

/-- The sums of step 2 are those of the rows of the pixels from before step 1. -/
theorem encodeRows_sums : (frameRows s.HIATTR s.BANK (e.SCR.toNat + 784) e.PIX.toNat e.W.toNat e.H.toNat
      (palPack (e.SCR.toNat + 16) e.PAL.toNat e.COUNT.toNat s.M)).2 =
    adlerBytes (1, 0) ((List.range e.H.toNat).flatMap (scanline s.HIATTR s.BANK s.M e.PIX.toNat e.W.toNat)) :=
  (frame_sums _ hr.pixels_stream).trans (congrArg _ (scanlines_congr hr.pixels_kept))

/-- Steps 3 and 4 leave scratch behind the IHDR payload as it was. -/
theorem encodeStagedMem_readBytes {b k : Nat} (hb : e.SCR.toNat + 13 ≤ b)
    (hk : b + k ≤ e.SCR.toNat + 784 + zLen e.W.toNat e.H.toNat) :
    (encodeStagedMem s e).readBytes b k = (encodeRowsMem s e).readBytes b k := by
  have hd := hr.scratch_signature (show e.SCR.toNat ≤ b by omega) hk
  exact ((headerMem_within _ _ _ _).readBytes (.inr hb)).trans ((signatureMem_within _ _).readBytes_of_disjoint hd)

theorem encodeStagedMem_palette : (encodeStagedMem s e).readBytes (e.SCR.toNat + 16) (3 * e.COUNT.toNat) =
    packedPalette s.M e.PAL.toNat e.COUNT.toNat := by
  have hc := hr.palette_le
  exact (encodeStagedMem_readBytes hr (by omega) (by omega)).trans (encodeRowsMem_palette hr)

theorem encodeStagedMem_stream : (encodeStagedMem s e).readBytes (e.SCR.toNat + 784) (zLen e.W.toNat e.H.toNat) =
    zlibStream s.HIATTR s.BANK s.M e.PIX.toNat e.W.toNat e.H.toNat :=
  (encodeStagedMem_readBytes hr (by omega) (Nat.le_refl _)).trans (encodeRowsMem_stream hr)

theorem encodeStagedMem_signature : (encodeStagedMem s e).readBytes e.OUT.toNat 8 =
    [0x89, 0x50, 0x4E, 0x47, 0x0D, 0x0A, 0x1A, 0x0A] := by
  have hd := hr.scratch_signature (n := 13) (Nat.le_refl _) (by omega)
  exact ((headerMem_within _ _ _ _).readBytes_of_disjoint hd.symm).trans (readBytes_signature _ _)

/-- Step 5 lays down the chunks of the staged payloads behind the signature (R183, R186). -/
theorem encodeMem_laysDown : (encodeStagedMem s e).LaysDown (encodeMem s e) e.OUT.toNat (pngFile s e) := by
  have hc := hr.palette_le
  have htotal : encodeTotal e = 69 + 3 * e.COUNT.toNat + zLen e.W.toNat e.H.toNat := rfl
  have hsig := Memory.LaysDown.of_readBytes (encodeStagedMem_signature hr)
  have hihdr := hsig.chunk tagIHDR (dst := e.OUT.toNat + 8) rfl (by omega)
    (hr.scratch_output (Nat.le_refl _) (by omega)) (encodeStagedMem_header s e)
  have hplte := hihdr.chunk tagPLTE (dst := e.OUT.toNat + 8 + 12 + 13) (by simp [length_pngChunk]) (by omega)
    (hr.scratch_output (by omega) (by omega)) (encodeStagedMem_palette hr)
  have hidat := hplte.chunk tagIDAT (dst := e.OUT.toNat + 8 + 12 + 13 + 12 + 3 * e.COUNT.toNat)
    (by simp [length_pngChunk, length_packedPalette]; omega) (by omega)
    (hr.scratch_output (by omega) (by omega)) (encodeStagedMem_stream hr)
  have hiend := hidat.chunk tagIEND (src := e.SCR.toNat) (n := 0) (payload := [])
    (dst := e.OUT.toNat + 8 + 12 + 13 + 12 + 3 * e.COUNT.toNat + 12 + zLen e.W.toNat e.H.toNat)
    (by simp [length_pngChunk, length_packedPalette, length_zlibStream]; omega) (by omega)
    (hr.scratch_output (Nat.le_refl _) (by omega)) rfl
  unfold encodeMem chunksMem pngFile
  exact hiend

/-- Step 5 leaves scratch as it was. -/
theorem encodeMem_readBytes_scratch {b k : Nat} (hb : e.SCR.toNat ≤ b)
    (hk : b + k ≤ e.SCR.toNat + 784 + zLen e.W.toNat e.H.toNat) :
    (encodeMem s e).readBytes b k = (encodeStagedMem s e).readBytes b k :=
  (encodeMem_laysDown hr).within.readBytes_of_disjoint
    (length_pngFile s e ▸ hr.scratch_output hb hk)

theorem encodeMem_size : (encodeMem s e).size = s.M.size :=
  (encodeMem_laysDown hr).within.size.trans
    ((headerMem_within _ _ _ _).size.trans ((signatureMem_within _ _).size.trans (encodeRowsMem_within hr).size))

/-- No byte outside the output and scratch regions is changed (R185). -/
theorem encodeMem_read_outside {a : Nat} (ho : a < e.OUT.toNat ∨ e.OUT.toNat + encodeTotal e ≤ a)
    (hs : a < e.SCR.toNat ∨ e.SCR.toNat + encodeScratch e ≤ a) : (encodeMem s e).read a = s.M.read a := by
  have htotal : encodeTotal e = 69 + 3 * e.COUNT.toNat + zLen e.W.toNat e.H.toNat := rfl
  have hscratch : encodeScratch e = 784 + zLen e.W.toNat e.H.toNat := rfl
  calc (encodeMem s e).read a
    _ = (encodeStagedMem s e).read a := (encodeMem_laysDown hr).within.other a (by rwa [length_pngFile])
    _ = (signatureMem (encodeRowsMem s e) e.OUT.toNat).read a := (headerMem_within _ _ _ _).other a (by omega)
    _ = (encodeRowsMem s e).read a := (signatureMem_within _ _).other a (by omega)
    _ = s.M.read a := (encodeRowsMem_within hr).other a hs

/-- The file stands at `OUT` (R183, R185, R186). -/
theorem encodeMem_file : (encodeMem s e).readBytes e.OUT.toNat (encodeTotal e) = pngFile s e := by
  rw [← length_pngFile s e]
  exact (encodeMem_laysDown hr).bytes

theorem encodeMem_header : (encodeMem s e).readBytes e.SCR.toNat 13 =
    be32 e.W ++ be32 e.H ++ [0x08, 0x03, 0x00, 0x00, 0x00] :=
  (encodeMem_readBytes_scratch hr (Nat.le_refl _) (by omega)).trans (encodeStagedMem_header s e)

theorem encodeMem_palette : (encodeMem s e).readBytes (e.SCR.toNat + 16) (3 * e.COUNT.toNat) =
    packedPalette s.M e.PAL.toNat e.COUNT.toNat := by
  have hc := hr.palette_le
  exact (encodeMem_readBytes_scratch hr (by omega) (by omega)).trans (encodeStagedMem_palette hr)

theorem encodeMem_stream : (encodeMem s e).readBytes (e.SCR.toNat + 784) (zLen e.W.toNat e.H.toNat) =
    zlibStream s.HIATTR s.BANK s.M e.PIX.toNat e.W.toNat e.H.toNat :=
  (encodeMem_readBytes_scratch hr (by omega) (Nat.le_refl _)).trans (encodeStagedMem_stream hr)

end Ready

/-! ### The state after the 64 commands -/

/-- Every register but those listed is unchanged. -/
def State.keepsBut (s t : State) (rs : List Reg) : Prop := ∀ r, r ∉ rs → readX t r = readX s r

theorem State.keepsBut.trans {s t u : State} {rs : List Reg} (h : s.keepsBut t rs) (h' : t.keepsBut u rs) :
    s.keepsBut u rs := fun r hr => (h' r hr).trans (h r hr)

theorem State.keepsBut.mono {s t : State} {rs rs' : List Reg} (h : s.keepsBut t rs) (hsub : rs ⊆ rs') :
    s.keepsBut t rs' := fun r hr => h r fun hmem => hr (hsub hmem)

/-- Two registers excepted one by one. -/
theorem State.keepsBut_pair {s t : State} {a b : Reg} (h : ∀ r, r ≠ a → r ≠ b → readX t r = readX s r) :
    s.keepsBut t [a, b] := by
  simpa only [keepsBut, List.mem_cons, List.not_mem_nil, or_false, not_or, and_imp] using h

/-- Four registers excepted one by one. -/
theorem State.keepsBut_four {s t : State} {a b c d : Reg}
    (h : ∀ r, r ≠ a → r ≠ b → r ≠ c → r ≠ d → readX t r = readX s r) : s.keepsBut t [a, b, c, d] := by
  simpa only [keepsBut, List.mem_cons, List.not_mem_nil, or_false, not_or, and_imp] using h

/-- Five registers excepted one by one. -/
theorem State.keepsBut_five {s t : State} {a b c d f : Reg}
    (h : ∀ r, r ≠ a → r ≠ b → r ≠ c → r ≠ d → r ≠ f → readX t r = readX s r) :
    s.keepsBut t [a, b, c, d, f] := by
  simpa only [keepsBut, List.mem_cons, List.not_mem_nil, or_false, not_or, and_imp] using h

/-- `x1` to `x10` as steps 1 and 2 of R181 load them; the later steps leave them alone (R185). -/
structure EncodeOperands (e : EncodeArgs) (t : State) : Prop where
  x1 : readX t 1 = e.SCR + 16
  x2 : readX t 2 = e.PAL
  x3 : readX t 3 = e.PALLEN
  x4 : readX t 4 = e.COUNT
  x5 : readX t 5 = e.SCR + 784
  x6 : readX t 6 = e.PIX
  x7 : readX t 7 = e.W
  x8 : readX t 8 = e.H
  x9 : readX t 9 = BitVec.ofNat 32 (3 * e.COUNT.toNat)
  x10 : readX t 10 = BitVec.ofNat 32 (zLen e.W.toNat e.H.toNat)

/-- `x11` to `x14` as step 5 of R181 leaves them (R185). -/
structure EncodeChunkRegs (e : EncodeArgs) (t : State) : Prop where
  x11 : (readX t 11).toNat = e.OUT.toNat + encodeTotal e
  x12 : readX t 12 = tagIEND
  x13 : readX t 13 = e.SCR
  x14 : readX t 14 = 0

/-- Only `x11` to `x14` are written after step 2 (R181). -/
theorem EncodeOperands.kept {e : EncodeArgs} {s t : State} (h : EncodeOperands e s)
    (hk : s.keepsBut t [11, 12, 13, 14]) : EncodeOperands e t where
  x1 := (hk 1 (by decide)).trans h.x1
  x2 := (hk 2 (by decide)).trans h.x2
  x3 := (hk 3 (by decide)).trans h.x3
  x4 := (hk 4 (by decide)).trans h.x4
  x5 := (hk 5 (by decide)).trans h.x5
  x6 := (hk 6 (by decide)).trans h.x6
  x7 := (hk 7 (by decide)).trans h.x7
  x8 := (hk 8 (by decide)).trans h.x8
  x9 := (hk 9 (by decide)).trans h.x9
  x10 := (hk 10 (by decide)).trans h.x10

/-- Steps 1 and 2: they raise nothing, leave the packed palette, the zlib stream and the sums, and load `x1` to `x10`. -/
theorem encodePaletteRows_spec {s : State} {e : EncodeArgs} (hr : EncodeReady s e) (hscr : e.SCR.toNat + 784 < 2 ^ 32) :
    noErrors (encodePalette e ++ encodeRows e) s ∧
    let t := effects (encodePalette e ++ encodeRows e) s
    t = { s with x := t.x, M := encodeRowsMem s e, A := t.A, B := t.B } ∧
    (t.A, t.B) = adlerBytes (1, 0)
      ((List.range e.H.toNat).flatMap (scanline s.HIATTR s.BANK s.M e.PIX.toNat e.W.toNat)) ∧
    EncodeOperands e t ∧ readX t 0 = readX s 0 ∧ readX t 15 = readX s 15 := by
  have hfit : e.SCR.toNat + 784 + (6 + e.H.toNat * (e.W.toNat + 6)) ≤ s.M.size.val :=
    (Nat.add_assoc _ _ _).trans_le hr.scr_in
  rw [noErrors_append, effects_append]
  obtain ⟨hok1, ht1, h1, h2, h3, h4, h9, hkeep1⟩ := encodePalette_spec s e hr hscr
  have hk1 := State.keepsBut_five hkeep1
  generalize effects (encodePalette e) s = p at *
  have hsize : p.M.size = s.M.size := by rw [ht1]; exact (palPack_within _ _ _ s.M).size
  have hbank : ¬ (p.HIATTR = true ∧ p.BANK = 0) := by rw [ht1]; exact hr.bank
  obtain ⟨hok2, ht2, h5, h6, h7, h8, h10, hkeep2⟩ :=
    encodeRows_spec p e hscr hr.width hbank (by rw [hsize]; exact hfit) (by rw [hsize]; exact hr.pix_in)
  have hk2 := State.keepsBut_five hkeep2
  generalize effects (encodeRows e) p = t at *
  obtain ⟨x, rfl⟩ : ∃ x, p = { s with x := x, M := palPack (e.SCR.toNat + 16) e.PAL.toNat e.COUNT.toNat s.M } :=
    ⟨_, ht1⟩
  have hA := congrArg State.A ht2
  have hB := congrArg State.B ht2
  refine ⟨⟨hok1, hok2⟩, ?frame, ?sums, ?operands, ?x0, ?x15⟩
  case frame => rw [hA, hB]; exact ht2
  case sums => rw [hA, hB]; exact encodeRows_sums hr
  case operands =>
    exact ⟨(hk2 1 (by decide)).trans h1, (hk2 2 (by decide)).trans h2, (hk2 3 (by decide)).trans h3,
      (hk2 4 (by decide)).trans h4, h5, h6, h7, h8, (hk2 9 (by decide)).trans h9, h10⟩
  case x0 => exact (hk2 0 (by decide)).trans (hk1 0 (by decide))
  case x15 => exact (hk2 15 (by decide)).trans (hk1 15 (by decide))

/-- Steps 3 to 5 in a state whose operands are loaded: they raise nothing and leave the file, the table and `x11` to
`x14`. -/
theorem encodeFile_spec {s : State} {e : EncodeArgs} (hT : s.TV = true → s.T = crcTable) (hx : EncodeOperands e s)
    (hcount : e.COUNT.toNat ≤ 256) (hout : e.OUT.toNat + encodeTotal e ≤ s.M.size.val)
    (hscr : e.SCR.toNat + encodeScratch e ≤ s.M.size.val)
    (hbounds : e.OUT.toNat + 8 < 2 ^ 32 ∧ e.SCR.toNat + 784 < 2 ^ 32) :
    let is := encodeSignature e ++ encodeHeader e ++ encodeChunks e
    noErrors is s ∧
    effects is s = { s with
      x := (effects is s).x
      T := crcTable
      TV := true
      M := chunksMem (e.OUT.toNat + 8) e.SCR.toNat (3 * e.COUNT.toNat) (zLen e.W.toNat e.H.toNat)
        (headerMem (signatureMem s.M e.OUT.toNat) e.SCR.toNat e.W e.H) } ∧
    EncodeChunkRegs e (effects is s) ∧ s.keepsBut (effects is s) [11, 12, 13, 14] := by
  obtain ⟨ho, hs⟩ := hbounds
  have hout8 : e.OUT.toNat + 8 ≤ s.M.size.val := by rw [encodeTotal] at hout; omega
  have hscr16 : e.SCR.toNat + 16 ≤ s.M.size.val := by rw [encodeScratch] at hscr; omega
  intro is
  simp only [is, noErrors_append, effects_append]
  obtain ⟨hok3, ht3, hkeep3⟩ := encodeSignature_spec s e ho hout8
  generalize effects (encodeSignature e) s = p at *
  have hsize3 : p.M.size = s.M.size := by rw [ht3]; exact (signatureMem_within _ _).size
  have hk3 := (State.keepsBut_pair hkeep3).mono (rs' := [11, 12, 13, 14]) (by decide)
  have hx3 := hx.kept hk3
  obtain ⟨hok4, ht4, hkeep4⟩ := encodeHeader_spec p e hs (by rw [hsize3]; exact hscr16) hx3.x7 hx3.x8
  generalize effects (encodeHeader e) p = q at *
  have hsize4 : q.M.size = s.M.size := by rw [ht4]; exact (headerMem_within _ _ _ _).size.trans hsize3
  have hk4 := (State.keepsBut_pair hkeep4).mono (rs' := [11, 12, 13, 14]) (by decide)
  have hx4 := hx3.kept hk4
  obtain ⟨y, rfl⟩ : ∃ y, p = { s with x := y, M := signatureMem s.M e.OUT.toNat } := ⟨_, ht3⟩
  have hT4 : q.TV = true → q.T = crcTable := by rw [ht4]; exact hT
  obtain ⟨hok5, ht5, h11, h12, h13, h14, hkeep5⟩ := encodeChunks_spec q e hT4 ho (by rw [hsize4]; exact hout) hcount
    (by rw [hsize4]; exact hscr) hx4.x1 hx4.x9 hx4.x5 hx4.x10 hs
  generalize effects (encodeChunks e) q = t at *
  obtain ⟨z, rfl⟩ : ∃ z, q = { s with
      x := z, M := headerMem (signatureMem s.M e.OUT.toNat) e.SCR.toNat e.W e.H } := ⟨_, ht4⟩
  exact ⟨⟨⟨hok3, hok4⟩, hok5⟩, ht5, ⟨h11, h12, h13, h14⟩,
    (hk3.trans hk4).trans (State.keepsBut_four hkeep5)⟩

/-- The state that the commands of an `ENCODE` started in `s` leave (R185). -/
structure EncodeEnd (s : State) (e : EncodeArgs) (t : State) : Prop where
  frame : t = { s with x := t.x, M := encodeMem s e, T := crcTable, TV := true, A := t.A, B := t.B }
  sums : (t.A, t.B) = adlerBytes (1, 0)
    ((List.range e.H.toNat).flatMap (scanline s.HIATTR s.BANK s.M e.PIX.toNat e.W.toNat))
  operands : EncodeOperands e t
  chunkRegs : EncodeChunkRegs e t
  x0 : readX t 0 = readX s 0
  x15 : readX t 15 = readX s 15

/-- The commands of `ENCODE` raise nothing and leave the end state of R185. -/
theorem encodeCommands_spec {s : State} {e : EncodeArgs} (hs : s.Inv) (hr : EncodeReady s e)
    (hbounds : e.OUT.toNat + 8 < 2 ^ 32 ∧ e.SCR.toNat + 784 < 2 ^ 32) :
    noErrors (encodeCommands e) s ∧ EncodeEnd s e (effects (encodeCommands e) s) := by
  have hsplit : encodeCommands e =
      (encodePalette e ++ encodeRows e) ++ (encodeSignature e ++ encodeHeader e ++ encodeChunks e) := by
    simp only [encodeCommands, List.append_assoc]
  rw [hsplit, noErrors_append, effects_append (encodePalette e ++ encodeRows e)]
  obtain ⟨hok1, hframe1, hsums, hx, h0, h15⟩ := encodePaletteRows_spec hr hbounds.2
  generalize effects (encodePalette e ++ encodeRows e) s = p at *
  have hsize : p.M.size = s.M.size := by rw [hframe1]; exact (encodeRowsMem_within hr).size
  have hT : p.TV = true → p.T = crcTable := by rw [hframe1]; exact hs.table
  obtain ⟨hok2, hframe2, hregs, hkeep⟩ := encodeFile_spec hT hx hr.count (by rw [hsize]; exact hr.out_in)
    (by rw [hsize]; exact hr.scr_in) hbounds
  generalize effects (encodeSignature e ++ encodeHeader e ++ encodeChunks e) p = t at *
  obtain ⟨x, a, b, rfl⟩ : ∃ x a b, p = { s with x := x, M := encodeRowsMem s e, A := a, B := b } :=
    ⟨_, _, _, hframe1⟩
  have hA := congrArg State.A hframe2
  have hB := congrArg State.B hframe2
  refine ⟨⟨hok1, hok2⟩, ?frame, ?sums, hx.kept hkeep, hregs, ?x0, ?x15⟩
  case frame => rw [hA, hB, encodeMem, encodeStagedMem]; exact hframe2
  case sums => rw [hA, hB]; exact hsums
  case x0 => exact (hkeep 0 (by decide)).trans h0
  case x15 => exact (hkeep 15 (by decide)).trans h15

/-- The host's run of the expansion ends in the end state of R185, with the actions behind it still to come. -/
theorem run_encode {s : State} {e : EncodeArgs} {l : List Instr} {rest : List HostAction} (hs : s.Inv)
    (hr : EncodeReady s e) (hl : encodeSeq e = some l) (hp : s.pending = issueAll l ++ rest) :
    ∃ t, Sys2Proof.core.run 64 s = .next { t with pending := rest } ∧ EncodeEnd s e t := by
  obtain ⟨hbounds, rfl⟩ := encodeSeq_eq_some hl
  obtain ⟨hok, hend⟩ := encodeCommands_spec hs hr hbounds
  exact ⟨_, run_issueAll decode_encode (encodeCommands e) rest s hr.running hp hok, hend⟩

/-- Settles O50: step 5 lays the chunks down behind the signature, each with the payload that steps 1, 2 and 4 staged. -/
theorem encodeWritesPng : Obligations.EncodeWritesPng := by
  intro s e l rest hs hr hl hp
  obtain ⟨t, hrun, hend⟩ := run_encode hs hr hl hp
  have hM : t.M = encodeMem s e := congrArg State.M hend.frame
  exact ⟨_, hrun, (congrArg (fun m => m.readBytes e.OUT.toNat (encodeTotal e)) hM).trans (encodeMem_file hr)⟩

/-- Settles O49: the registers are those of the five steps, and step 5 leaves scratch as the steps before it did. -/
theorem encodeEndState : Obligations.EncodeEndState := by
  intro s e l rest hs hr hl hp
  obtain ⟨t, hrun, hframe, hsums, hx, hregs, h0, h15⟩ := run_encode hs hr hl hp
  have hM : t.M = encodeMem s e := congrArg State.M hframe
  have hcount := hr.palette_le
  have hz := hr.scr_in.trans_lt s.M.size.isLt
  refine ⟨_, hrun, (congrArg State.ERR hframe).trans hr.running, (congrArg State.ERRINFO hframe :), hx.x1, hx.x2,
    hx.x3, hx.x4, hx.x5, hx.x6, hx.x7, hx.x8, ?x9, ?x10, hregs.x11, hregs.x12, hregs.x13, hregs.x14, h0, h15,
    congrArg State.TV hframe, (congrArg State.HIATTR hframe :), (congrArg State.BANK hframe :), rfl,
    (congrArg State.answers hframe :), hsums, ?memory⟩
  case x9 => exact (congrArg BitVec.toNat hx.x9).trans (toNat_ofNat32 _ (by omega))
  case x10 => exact (congrArg BitVec.toNat hx.x10).trans (toNat_ofNat32 _ (by rw [encodeScratch] at hz; omega))
  case memory =>
    rw [hM]
    exact ⟨encodeMem_size hr, encodeMem_header hr, encodeMem_palette hr, encodeMem_stream hr,
      fun a => encodeMem_read_outside hr⟩

end Sys2Proof.Machine

/-! PROOFS. The statements of 46_control.md. -/

namespace Sys2Proof.Machine

/-! ### `NOP` and the other words with opcode 0 -/

/-- The word 0 issued in any state: `NOP`, or ignored (46_control.md R190; 60_exceptions.md R206). -/
theorem issue_zero (s : State) : issue 0 s = .next s := by
  have hd : decode 0 = .ok .nop := decode_encode .nop
  by_cases hs : s.ERR = 0
  · exact issue_ok hs hd
  · exact issue_other_of_failStop hs (hd ▸ nofun)

/-- A word below `0x01000000` has opcode 0. -/
theorem opField_of_lt {w : Word} (h : w.toNat < 2 ^ 24) : opField w = 0 := by
  refine BitVec.eq_of_toNat_eq ?_
  rw [opField, BitVec.extractLsb'_toNat, Nat.shiftRight_eq_div_pow, Nat.div_eq_of_lt h]
  rfl

/-- Settles O24: such a word has the opcode of the row of `NOP`, which only the word 0 matches. -/
theorem nopDoesNothing : Obligations.NopDoesNothing := by
  refine fun s => ⟨rfl, issue_zero s, fun w hw hlt hs => issue_of_no_match hs ?_⟩
  have hrow : w &&& rows[0].mask ≠ rows[0].pattern := fun h => hw (BitVec.and_allOnes.symm.trans h)
  have hop : opField w = opField rows[0].pattern := (opField_of_lt hlt).trans (by decide)
  exact no_match_of_own_row_mismatch (List.getElem_mem _) hop hrow

/-! ### `LI` and `LIH` -/

/-- Settles O25: widening the immediate keeps its value. -/
theorem liLoadsImmediate : Obligations.LiLoadsImmediate := by
  refine fun s rd imm => ⟨rfl, _, rfl, ?_, onlyX_writeX s rd _⟩
  rw [readX_writeX_same, BitVec.toNat_setWidth_of_le (by decide)]

/-- Settles O26: the register becomes the immediate above the low 16 bits that it had. -/
theorem lihLoadsHighHalf : Obligations.LihLoadsHighHalf := by
  refine fun s rd imm => ⟨rfl, _, rfl, ?_, onlyX_writeX s rd _⟩
  rw [readX_writeX_same, BitVec.toNat_append, ← Nat.shiftLeft_add_eq_or_of_lt (BitVec.isLt _), Nat.shiftLeft_eq,
    BitVec.toNat_setWidth]

/-! ### The values of the CSRs -/

/-- `STATUS` is `TV` above the 8 bits of `ERR` (10_state.md R27). -/
theorem toNat_statusWord (s : State) : (statusWord s).toNat = 256 * s.TV.toNat + s.ERR.toNat := by
  have htv : ((BitVec.ofBool s.TV).setWidth 32 <<< 8).toNat = s.TV.toNat <<< 8 := by cases s.TV <;> rfl
  have herr : (s.ERR.setWidth 32).toNat = s.ERR.toNat := BitVec.toNat_setWidth_of_le (by decide)
  rw [statusWord, BitVec.toNat_or, htv, herr, ← Nat.shiftLeft_add_eq_or_of_lt s.ERR.isLt, Nat.shiftLeft_eq,
    Nat.mul_comm]

/-- `CFG` is `HIATTR` (10_state.md R28). -/
theorem toNat_cfgWord (s : State) : (cfgWord s).toNat = s.HIATTR.toNat := by
  rw [cfgWord]
  cases s.HIATTR <;> rfl

/-- The bit of `CFG` that a write stores is the parity of the value (10_state.md R28). -/
theorem toNat_cfgBit (v : Word) : (cfgBit v).toNat = v.toNat % 2 := by
  rw [cfgBit, BitVec.getLsbD, Nat.toNat_testBit, Nat.pow_zero, Nat.div_one]

/-! ### `CSRR` and `CSRW` -/

/-- What `CSRR` leaves in its destination is the CSR of its number (46_control.md R193). -/
theorem readX_effect_csrr {s : State} {rd : Reg} {csr : Half} {k : Csr} (h : csrOfNumber csr.toNat = some k) :
    readX (effect (.csrr rd csr) s) rd = csrValue s k := by
  rw [effect, readX_writeX_same, h]
  rfl

/-- Settles O27: below 4 there is no error, and the destination gets the CSR of that number. -/
theorem csrrReadsCsr : Obligations.CsrrReadsCsr := by
  refine fun s rd csr => ⟨fun h => ⟨effect (.csrr rd csr) s, exec_of_errorCode_zero (if_neg (Nat.not_le.mpr h)),
    onlyX_writeX s rd _, fun hstatus => ?_, fun hcfg => ?_, fun hbank => readX_effect_csrr (congrArg csrOfNumber hbank),
    fun hinfo => readX_effect_csrr (congrArg csrOfNumber hinfo)⟩, fun h => exec_of_errorCode_one (if_pos h)⟩
  · rw [readX_effect_csrr (congrArg csrOfNumber hstatus)]
    exact toNat_statusWord s
  · rw [readX_effect_csrr (congrArg csrOfNumber hcfg)]
    exact toNat_cfgWord s

/-- `CSRW` of a writable CSR stores the register in it (46_control.md R194). -/
theorem exec_csrw {s t : State} {csr : Half} {r : Reg} {k : Csr} (hk : csrOfNumber csr.toNat = some k)
    (ht : csrStore s (readX s r) k = some t) : exec (.csrw csr r) s = .next t := by
  simp [exec, execCsrw, hk, ht]

/-- Settles O28: of the four CSRs only 1 and 2 can be stored to, and every other number is an error. -/
theorem csrwWritesCsr : Obligations.CsrwWritesCsr := by
  refine fun s csr r => ⟨fun hcfg => ⟨_, exec_csrw (congrArg csrOfNumber hcfg) rfl, rfl, toNat_cfgBit _⟩,
    fun hbank => exec_csrw (congrArg csrOfNumber hbank) rfl, fun hcfg hbank => ?_⟩
  have hother : csr.toNat = 0 ∨ csr.toNat = 3 ∨ 4 ≤ csr.toNat := by omega
  exact exec_of_errorCode_one (if_pos hother)

/-! ### `CLRERR` -/

/-- The word of `CLRERR` clears the error record in every state (46_control.md R195; 60_exceptions.md R206). -/
theorem issue_clrerr (s : State) : issue (encode .clrerr) s = .next (clearError s) := by
  by_cases hs : s.ERR = 0
  · exact issue_ok hs (decode_encode .clrerr)
  · exact issue_clrerr_of_failStop hs (decode_encode .clrerr)

/-- Where the record is clear, clearing it changes nothing (46_control.md R195). -/
theorem clearError_of_clear {s : State} (herr : s.ERR = 0) (hinfo : s.ERRINFO = 0) : clearError s = s := by
  rw [clearError, withError, ← herr, ← hinfo]

/-- Settles O29: the word of `CLRERR` is the only one that decodes to it, and with `ERR = 0` the invariant makes
`ERRINFO` 0 too. -/
theorem clrerrClearsRecord : Obligations.ClrerrClearsRecord :=
  fun s => ⟨rfl, issue_clrerr s,
    fun hs _ hw => issue_other_of_failStop hs fun hd => hw (encode_of_decode hd).symm,
    fun hinv hs => congrArg Host.Outcome.next (clearError_of_clear hs (hinv.errinfo_zero hs))⟩

end Sys2Proof.Machine

/-! PROOFS. The statements of 60_exceptions.md. -/

namespace Sys2Proof.Machine

/-! ### Fail-stop -/

/-- Settles O9: only the word of `CLRERR` decodes to it, and the host's accesses to `M` do not look at `ERR`. -/
theorem failStopIgnoresWords : Obligations.FailStopIgnoresWords := by
  refine fun s hs => ⟨fun w hw => ?word, fun a b ha => ?mem, fun i => rfl, fun k => rfl⟩
  case word => exact issue_other_of_failStop hs fun hd => hw (encode_of_decode hd).symm
  case mem =>
    obtain ⟨hwrite, hread⟩ := (hostPortActions s).1 a b ha
    exact ⟨hread, hwrite⟩

/-- Settles O10: of the changes that a step can make, recording an error and writing a byte leave `ERR` non-zero, and in
fail-stop the only effect is that of `CLRERR`. -/
theorem onlyClrerrOrResetLeavesFailStop : Obligations.OnlyClrerrOrResetLeavesFailStop := by
  intro s t hs h ht
  rcases step_changes h with hr | ⟨rest, ⟨i, hp, hi, -, rfl⟩ | ⟨a, b, -, -, rfl⟩ | ⟨hp, -⟩⟩
  · rcases hr.record with ⟨he, -⟩ | ⟨hne, -⟩
    · exact absurd (he.symm.trans ht) hs
    · exact absurd ht hne
  · obtain rfl : i = .clrerr := hi.resolve_left hs
    exact ⟨rest, .inl ⟨hp, rfl⟩⟩
  · exact absurd ht hs
  · exact ⟨rest, .inr hp⟩

/-! ### Raising an error -/

/-- Settles O11: a word that has an effect leaves `ERR = 0`; one that raises leaves the old state with its own error record,
and the word of a decoded command is the word issued. -/
theorem errorsArePrecise : Obligations.ErrorsArePrecise := by
  intro s t w hs h ht
  rcases issue_cases h with ⟨i, -, -, -, rfl⟩ | ⟨i, hd, -, -, rfl⟩ | ⟨e, -, -, rfl⟩ | ⟨hne, -, -⟩
  · exact absurd (effect_ERR i hs) ht
  · rw [encode_of_decode hd]
    rfl
  · rfl
  · exact absurd hs hne

/-- Every code of the error table fits in `ERR` (60_exceptions.md R200). -/
theorem toNat_ofNat_errorCode (i : Instr) (s : State) : (BitVec.ofNat 8 (errorCode s i)).toNat = errorCode s i :=
  BitVec.toNat_ofNat .. |>.trans (Nat.mod_eq_of_lt ((errorCode_le i s).trans_lt (by decide)))

/-- A command issued with `ERR = 0` leaves its error code in `ERR`: 0 with its effect, the code it raises otherwise
(60_exceptions.md R201, R203). -/
theorem exec_records_errorCode (i : Instr) {s : State} (hs : s.ERR = 0) :
    ∃ t, exec i s = .next t ∧ t.ERR.toNat = errorCode s i := by
  by_cases hc : errorCode s i = 0
  · refine ⟨effect i s, exec_of_errorCode_zero hc, ?_⟩
    rw [effect_ERR i hs, hc]
    rfl
  · exact ⟨_, exec_of_errorCode_ne_zero rfl hc, toNat_ofNat_errorCode i s⟩

/-- A word that is no command's does not decode (30_encoding.md R86). -/
theorem decode_of_no_encode {w : Word} (h : ∀ i, encode i ≠ w) : ∃ e, decode w = .error e := by
  cases hd : decode w with
  | error e => exact ⟨e, rfl⟩
  | ok i => exact absurd (encode_of_decode hd) (h i)

/-- Settles O12: a command leaves its error code in `ERR`, and a word that is no command's does not decode. -/
theorem errorConditions : Obligations.ErrorConditions := by
  refine fun s hs => ⟨fun i => exec_records_errorCode i hs, fun w hw => ?_⟩
  obtain ⟨e, hd⟩ := decode_of_no_encode hw
  exact issue_error hs hd

end Sys2Proof.Machine
